-- ==== Sys2Proof/Word.lean ====
section
/-! DEFINITION. The widths of the values the spec names (00_scope.md R8, "Fixed widths", and R10).
Every value is unsigned. -/

namespace Sys2Proof

/-- A register or a descriptor, 32 bits (R8, R21, R58). -/
abbrev Word := BitVec 32

/-- A byte, 8 bits (R8). -/
abbrev Byte := BitVec 8

/-- An FDT word or a frame's `length` field, 16 bits (R8). -/
abbrev Half := BitVec 16

/-- An unpacked pixel sample, 12 bits (R105). -/
abbrev Sample := BitVec 12

/-- A category, 4 bits (R8, R84). -/
abbrev Category := BitVec 4

/-- A command, 3 bits (R8, R84). -/
abbrev Command := BitVec 3

end Sys2Proof
end

