-- ==== Sys2Proof/Config.lean ====
section
/-! DEFINITION. What an implementation of the unit fixes: the OPEN parameters of 00_scope.md R8,
"which a model takes as arguments", and the one value the spec does not state. They are opaque: nothing
in Lean can evaluate them, so what is proved of them holds for every unit (log entries 3 and 4).
REG_BINDING, the fourth parameter, describes the host's bus and no step of the unit (log entry 8). -/

namespace Sys2Proof

/-- The parameters of R8 that an operation reads. -/
structure Params where
  /-- `IN_CAP`: the size in bytes of IN. -/
  inCap : Nat
  /-- `OUT_CAP`: the size in bytes of OUT. -/
  outCap : Nat
  /-- `BLOCK_SIZE`: what FENC pads to when PAD = 1. -/
  blockSize : Nat
deriving DecidableEq, Repr

/-- How far IN_CAP lies above its least value, 26 (R8). OPEN. -/
opaque Config.inCapAboveLeast : Nat

/-- How far OUT_CAP lies above its least value, 4 (R8). OPEN. -/
opaque Config.outCapAboveLeast : Nat

/-- How far BLOCK_SIZE lies above its least value, 1 (R8). OPEN. -/
opaque Config.blockSizeAboveLeast : Nat

/-- What OUT_LEN holds after an operation with this DESC and this IN_LEN that wrote 2^32 bytes or more,
a count its 32 bits cannot hold (R25, D33). A FREE VALUE (DESIGN CHOICE, log entry 4). -/
opaque Config.freeOutLen : Word → Word → Word

/-- The parameters of this unit: every choice that R8 allows. -/
def Config.params : Params where
  inCap := Config.inCapAboveLeast + 26
  outCap := Config.outCapAboveLeast + 4
  blockSize := Config.blockSizeAboveLeast + 1

end Sys2Proof
end

