-- ==== Sys2Proof/Syntax.lean ====
section
/-! DEFINITION. The operations of the unit (30_encoding.md R59, opcode_table.json), one constructor
per row. The operands are the descriptor fields of R60; every other operand is read from the
state (R62). A category above 15 or a command above 7 cannot be written down (R96, D7). -/

namespace Sys2Proof

/-- The seven operations of R59. -/
inductive Instr where
  /-- CSUM: checksum of a byte sequence (R81). -/
  | csum
  /-- FENC: frame encode, with CAT, CMD, CALC and PAD (R86). -/
  | fenc (cat : Category) (cmd : Command) (calcBit pad : Bool)
  /-- FDEC: frame decode (R89). -/
  | fdec
  /-- ACKCHK: acknowledgment check, with CAT and CMD (R93). -/
  | ackchk (cat : Category) (cmd : Command)
  /-- OTPV: OTP hash verify (R101). -/
  | otpv
  /-- IMGU: packed-pixel unpack, with WIDE (R107). -/
  | imgu (wide : Bool)
  /-- FDTB: FDT base transform (R112). -/
  | fdtb
deriving DecidableEq, Repr

end Sys2Proof
end

