-- ==== Sys2Proof/WellFormed.lean ====
section
/-! DEFINITION. What is well-formed. An `Instr` always is: its operands have the widths of their
descriptor fields, so no out-of-range value can be written down (41_frame_codec.md R96, D7). What
can be ill-formed is a line of the assembler, whose numbers are unbounded (30_encoding.md R73), and
a choice of parameters (00_scope.md R8). -/

namespace Sys2Proof

/-- A line of the assembler syntax of R73, its numbers as written. -/
inductive AsmLine where
  /-- `csum` -/
  | csum
  /-- `fenc <cat>, <cmd>[, calc][, pad]` -/
  | fenc (cat cmd : Nat) (calcBit pad : Bool)
  /-- `fdec` -/
  | fdec
  /-- `ackchk <cat>, <cmd>` -/
  | ackchk (cat cmd : Nat)
  /-- `otpv` -/
  | otpv
  /-- `imgu`, or `imgu.w` -/
  | imgu (wide : Bool)
  /-- `fdtb` -/
  | fdtb
  /-- `.desc <value>`, any 32-bit value -/
  | desc (value : Nat)
deriving DecidableEq, Repr

/-- The numbers of the line are in range (R73: "`<cat>` is a number 0–15 and `<cmd>` a number 0–7",
"any 32-bit value"). An assembler refuses every other line and truncates none. -/
def AsmLine.wellFormed : AsmLine → Bool
  | .fenc cat cmd _ _ => decide (cat < 16) && decide (cmd < 8)
  | .ackchk cat cmd => decide (cat < 16) && decide (cmd < 8)
  | .desc value => decide (value < 4294967296)
  | .csum | .fdec | .otpv | .imgu _ | .fdtb => true

/-- The constraints of R8 on the parameters. -/
def Params.wellFormed (p : Params) : Bool :=
  decide (26 ≤ p.inCap) && decide (4 ≤ p.outCap) && decide (1 ≤ p.blockSize)

end Sys2Proof
end

