-- ==== Sys2Proof/Decode.lean ====
section
/-! DEFINITION. Descriptor decode (30_encoding.md R58–R62, R66), total on every 32-bit value, and
after it the encoder, written from the descriptors of R73. -/

namespace Sys2Proof

/-- Why a descriptor selects no operation: the two cases of R66. -/
inductive DecodeError where
  /-- OP is 0x00 or 0x08–0xFF. -/
  | unassignedOp (op : Byte)
  /-- OP is 0x01–0x07 and a must-be-0 bit of R60 is set. -/
  | mustBeZeroBitSet (op : Byte)
deriving DecidableEq, Repr

/-- OP, bits 7:0 (R58). -/
def descOp (d : Word) : Byte := d.extractLsb' 0 8

/-- CAT, bits 11:8 (R58, R62). -/
def descCat (d : Word) : Category := d.extractLsb' 8 4

/-- CMD, bits 14:12 (R58, R62). -/
def descCmd (d : Word) : Command := d.extractLsb' 12 3

/-- CALC, bit 16 (R58, R62). -/
def descCalc (d : Word) : Bool := d.getLsbD 16

/-- PAD, bit 17 (R58, R62). -/
def descPad (d : Word) : Bool := d.getLsbD 17

/-- WIDE, bit 18 (R58, R62). -/
def descWide (d : Word) : Bool := d.getLsbD 18

/-- One row of R60: the descriptor `d` selects it iff `d & mask = pattern`. -/
structure DescRow where
  pattern : Word
  mask : Word
  build : Word → Instr

/-- The table of R60, with the operand fields of R62. -/
def descRows : List DescRow :=
  [ ⟨0x00000001, 0xFFFFFFFF, fun _ => .csum⟩,
    ⟨0x00000002, 0xFFFC80FF, fun d => .fenc (descCat d) (descCmd d) (descCalc d) (descPad d)⟩,
    ⟨0x00000003, 0xFFFFFFFF, fun _ => .fdec⟩,
    ⟨0x00000004, 0xFFFF80FF, fun d => .ackchk (descCat d) (descCmd d)⟩,
    ⟨0x00000005, 0xFFFFFFFF, fun _ => .otpv⟩,
    ⟨0x00000006, 0xFFFBFFFF, fun d => .imgu (descWide d)⟩,
    ⟨0x00000007, 0xFFFFFFFF, fun _ => .fdtb⟩ ]

/-- The first row that `d` selects (the loop of R61). -/
def selectRow (d : Word) : List DescRow → Option Instr
  | [] => none
  | r :: rs => if d &&& r.mask = r.pattern then some (r.build d) else selectRow d rs

/-- Which of R66's two cases makes `d` illegal. -/
def illegalReason (d : Word) : DecodeError :=
  if descOp d = 0 ∨ 8 ≤ (descOp d).toNat then .unassignedOp (descOp d)
  else .mustBeZeroBitSet (descOp d)

/-- Descriptor decode (R61): exactly one operation, or ILLEGAL with the reason. -/
def decode (d : Word) : Except DecodeError Instr :=
  match selectRow d descRows with
  | some i => .ok i
  | none => .error (illegalReason d)

/-- The operation the decoder reads from `nbits` bits `w` of opcode_table.json (bit 0 is bit 0 of the
descriptor, R10; every bit from `nbits` up is 0); none where it refuses, or where a bit lies above
the 32 of a descriptor. -/
def decodeTableWord (nbits w : Nat) : Option Instr :=
  if w % 2 ^ nbits < 4294967296 then
    match decode (BitVec.ofNat 32 (w % 2 ^ nbits)) with
    | .ok i => some i
    | .error _ => none
  else none

/-- The operation code of R59. -/
def Instr.opCode : Instr → Byte
  | .csum => 0x01
  | .fenc _ _ _ _ => 0x02
  | .fdec => 0x03
  | .ackchk _ _ => 0x04
  | .otpv => 0x05
  | .imgu _ => 0x06
  | .fdtb => 0x07

/-- The descriptor of R58 with the given fields; bits 15 and 31:19 are 0. -/
def descriptor (op : Byte) (cat : Category) (cmd : Command) (calcBit pad wide : Bool) : Word :=
  op.setWidth 32 ||| (cat.setWidth 32 <<< 8) ||| (cmd.setWidth 32 <<< 12)
    ||| ((BitVec.ofBool calcBit).setWidth 32 <<< 16) ||| ((BitVec.ofBool pad).setWidth 32 <<< 17)
    ||| ((BitVec.ofBool wide).setWidth 32 <<< 18)

/-- The descriptor of an operation (R60, R73): the fields it uses, every other field 0. -/
def encode (i : Instr) : Word :=
  match i with
  | .csum => descriptor i.opCode 0 0 false false false
  | .fenc cat cmd calcBit pad => descriptor i.opCode cat cmd calcBit pad false
  | .fdec => descriptor i.opCode 0 0 false false false
  | .ackchk cat cmd => descriptor i.opCode cat cmd false false false
  | .otpv => descriptor i.opCode 0 0 false false false
  | .imgu wide => descriptor i.opCode 0 0 false false wide
  | .fdtb => descriptor i.opCode 0 0 false false false

end Sys2Proof
end

