-- ==== Sys2Proof/Machine/Constants.lean ====
section
/-! DEFINITION. The named constants of 00_scope.md R9, each stated once (D36; UNVERIFIED, log entry 19).
Those that count bytes are abbreviations, so that arithmetic sees their value. -/

namespace Sys2Proof.Machine

/-- `CSUM_SEED` -/
def csumSeed : Byte := 0xAA

/-- `CSUM_SENTINEL` -/
def csumSentinel : Byte := 0x88

/-- `HDR_SIZE` -/
abbrev hdrSize : Nat := 3

/-- `OTP_HASH_OFFSET` -/
abbrev otpHashOffset : Nat := 25

/-- `ACK_CATEGORY` -/
def ackCategory : Category := 0x0B

/-- `ACK_COMMAND` -/
def ackCommand : Command := 0

/-- `CHUNK_IN` -/
abbrev chunkIn : Nat := 6

/-- `CHUNK_OUT` -/
abbrev chunkOut : Nat := 4

/-- `FDT_MASK` -/
abbrev fdtMask : Nat := 0xFFFE

/-- `FDT_MUL` -/
abbrev fdtMul : Nat := 0x80

/-- The size of TABLE (R8, R35). -/
abbrev tableSize : Nat := 256

/-- The longest payload FENC takes, so that N + 1 fits the 16-bit `length` field (R68, R86). -/
abbrev maxPayload : Nat := 65534

end Sys2Proof.Machine
end

