-- ==== Sys2Proof/Machine/State.lean ====
section
/-! DEFINITION. The state of the machine: the unit's record of 10_state.md R41 (nine registers, three
memories), and beside it, as plain data, the host that drives it (00_scope.md R7): the accesses it
has still to make and the values its reads have returned. -/

namespace Sys2Proof.Machine

/-- The three memories of R18 (20_memory.md R51: disjoint spaces). -/
inductive MemId where
  /-- IN (R33) -/
  | inp
  /-- OUT (R34) -/
  | out
  /-- TABLE (R35) -/
  | table
deriving DecidableEq, Repr

/-- A memory: the bytes written since reset, by index, indices strictly rising (`Memory.wf`). An index
that is not listed holds no value, and reading it faults (R36). -/
abbrev Memory := List Host.Cell

/-- One step of the host, or a reset (70_reset_and_hazards.md R141, R132). Register numbers and memory
indices are unbounded: those outside the map are refused (R37). -/
inductive HostStep where
  /-- Write register `r` (R31); a write to DESC starts an operation (R22). -/
  | writeReg (r : Nat) (v : Word)
  /-- Read register `r` (R31). -/
  | readReg (r : Nat)
  /-- Write one byte of a memory (R47). -/
  | writeMem (m : MemId) (a : Nat) (b : Byte)
  /-- Read one byte of a memory (R47). -/
  | readMem (m : MemId) (a : Nat)
  /-- Reset (R132). -/
  | reset
deriving DecidableEq, Repr

/-- A value that a host read returned (R141). -/
inductive ReadValue where
  /-- A register's 32 bits (R45). -/
  | reg (v : Word)
  /-- A memory byte (R47). -/
  | byte (b : Byte)
deriving DecidableEq, Repr

/-- The model faults of R36. They are "a property of the model" and no status code. -/
inductive Fault where
  /-- Raised by an operation's read of IN or TABLE, and by a host read of any memory, at a byte not
  written since reset (R36). Safe: a chip returns some value there and goes on. -/
  | neverWrittenByte (m : MemId) (a : Nat)
  /-- Raised by a host read of a result register (4–8) that no operation has written since reset (R31,
  R36). Safe: a chip returns some value there and goes on. -/
  | neverWrittenReg (r : Nat)
deriving DecidableEq, Repr

/-- Steps without a meaning in the model (R37), and the mark of an instruction not modelled. -/
inductive Refusal where
  /-- Raised by `exec` for an instruction the model gives no meaning; no arm does so. Safe: nothing
  is claimed of the instruction. -/
  | notModelled (mnemonic : String)
  /-- Raised by a host access to register number 9 or above (R37). Safe: nothing is claimed of it. -/
  | unmappedRegister (r : Nat)
  /-- Raised by a host access to IN or OUT at or above its capacity, or to TABLE at or above 256
  (R37). Safe: nothing is claimed of it. -/
  | indexOutsideMemory (m : MemId) (a : Nat)
deriving DecidableEq, Repr

/-- The state. The first twelve fields are the unit's, exactly R41; a result register that is `none`
has not been written since reset (R36). The last two are the host's side (log entries 1 and 2). -/
structure State where
  /-- DESC, register 0 (R22) -/
  desc : Word
  /-- IN_LEN, register 1 (R23) -/
  inLen : Word
  /-- STATUS, register 2 (R24) -/
  status : Word
  /-- OUT_LEN, register 3 (R25) -/
  outLen : Word
  /-- CSUM_RES, register 4 (R26) -/
  csumRes : Option Word
  /-- DEC_HDR, register 5 (R27) -/
  decHdr : Option Word
  /-- ERR_CSUM, register 6 (R28) -/
  errCsum : Option Word
  /-- ACK_RSN, register 7 (R29) -/
  ackRsn : Option Word
  /-- OTP_RES, register 8 (R30) -/
  otpRes : Option Word
  /-- IN (R33) -/
  inMem : Memory
  /-- OUT (R34) -/
  outMem : Memory
  /-- TABLE (R35) -/
  table : Memory
  /-- The host steps not yet taken, in the total order of 20_memory.md R53. -/
  pending : List HostStep
  /-- The values the host's reads have returned, oldest first (R141). -/
  observed : List ReadValue
deriving DecidableEq, Repr

/-- The state right after reset (R40, R132), the host having nothing to do and having read nothing. -/
def State.reset : State where
  desc := 0
  inLen := 0
  status := 0
  outLen := 0
  csumRes := none
  decHdr := none
  errCsum := none
  ackRsn := none
  otpRes := none
  inMem := []
  outMem := []
  table := []
  pending := []
  observed := []

/-- What a step answers. -/
abbrev Result := Host.Outcome State Fault Refusal

end Sys2Proof.Machine
end

