-- ==== Sys2Proof/Machine/Flags.lean ====
section
/-! DEFINITION. The status codes (60_exceptions.md R116) and the words of the status and result
registers, which "play the part of flags" (10_state.md R24–R30, R39). Each register's fields are read
by accessors of their own. -/

namespace Sys2Proof.Machine

/-- The status codes of R116. -/
inductive StatusCode where
  /-- NONE: the value after reset; never raised -/
  | none
  /-- OK -/
  | ok
  /-- CHECKSUM_MISMATCH -/
  | checksumMismatch
  /-- INVALID_ACK -/
  | invalidAck
  /-- TRUNCATED_FRAME -/
  | truncatedFrame
  /-- BAD_IMAGE_LENGTH -/
  | badImageLength
  /-- OTP_TOO_SHORT -/
  | otpTooShort
  /-- ILLEGAL_OPERATION -/
  | illegalOperation
  /-- CAPACITY -/
  | capacity
  /-- ENCODE_RANGE -/
  | encodeRange
deriving DecidableEq, Repr

/-- The numeric value of a status code (R116). -/
def statusByte : StatusCode → Byte
  | .none => 0x00
  | .ok => 0x01
  | .checksumMismatch => 0x02
  | .invalidAck => 0x03
  | .truncatedFrame => 0x04
  | .badImageLength => 0x05
  | .otpTooShort => 0x06
  | .illegalOperation => 0x07
  | .capacity => 0x08
  | .encodeRange => 0x09

/-- STATUS with CODE[7:0] and LAST_OP[15:8]; bits 31:16 are 0 (R24). -/
def statusWord (lastOp : Byte) (c : StatusCode) : Word := 0#16 ++ lastOp ++ statusByte c

/-- STATUS.CODE (R24). -/
def statusCodeField (w : Word) : Byte := w.extractLsb' 0 8

/-- STATUS.LAST_OP (R24). -/
def statusLastOp (w : Word) : Byte := w.extractLsb' 8 8

/-- CSUM_RES with VALUE[7:0] (R26). -/
def csumResWord (value : Byte) : Word := value.setWidth 32

/-- CSUM_RES.VALUE (R26). -/
def csumResValue (w : Word) : Byte := w.extractLsb' 0 8

/-- DEC_HDR from the received `cmd` byte, SKIPPED and the declared length (R27, R89):
CAT[3:0], CMD[6:4], RSV0[7], SKIPPED[8], 0 in 15:9, DLEN[31:16]. -/
def decHdrWord (cmdByte : Byte) (skipped : Bool) (declared : Half) : Word :=
  declared ++ 0#7 ++ BitVec.ofBool skipped ++ cmdByte.extractLsb' 0 1 ++ cmdByte.extractLsb' 1 3
    ++ cmdByte.extractLsb' 4 4

/-- DEC_HDR.CAT (R27). -/
def decHdrCat (w : Word) : Category := w.extractLsb' 0 4

/-- DEC_HDR.CMD (R27). -/
def decHdrCmd (w : Word) : Command := w.extractLsb' 4 3

/-- DEC_HDR.RSV0 (R27). -/
def decHdrRsv0 (w : Word) : Bool := w.getLsbD 7

/-- DEC_HDR.SKIPPED (R27). -/
def decHdrSkipped (w : Word) : Bool := w.getLsbD 8

/-- DEC_HDR.DLEN (R27). -/
def decHdrDlen (w : Word) : Half := w.extractLsb' 16 16

/-- ERR_CSUM with EXPECTED[7:0] and RECEIVED[15:8] (R28, D13). -/
def errCsumWord (expected received : Byte) : Word := 0#16 ++ received ++ expected

/-- ERR_CSUM.EXPECTED (R28). -/
def errCsumExpected (w : Word) : Byte := w.extractLsb' 0 8

/-- ERR_CSUM.RECEIVED (R28). -/
def errCsumReceived (w : Word) : Byte := w.extractLsb' 8 8

/-- ACK_RSN with CAT_BAD[0] and CMD_BAD[1] (R29). -/
def ackRsnWord (catBad cmdBad : Bool) : Word := 0#30 ++ BitVec.ofBool cmdBad ++ BitVec.ofBool catBad

/-- ACK_RSN.CAT_BAD (R29). -/
def ackRsnCatBad (w : Word) : Bool := w.getLsbD 0

/-- ACK_RSN.CMD_BAD (R29). -/
def ackRsnCmdBad (w : Word) : Bool := w.getLsbD 1

/-- OTP_RES with MATCH[0], EXPECTED[15:8] and COMPUTED[23:16] (R30, R101): MATCH is set iff the two
hashes are equal. -/
def otpResWord (expected computed : Byte) : Word :=
  0#8 ++ computed ++ expected ++ 0#7 ++ BitVec.ofBool (expected == computed)

/-- OTP_RES.MATCH (R30). -/
def otpResMatch (w : Word) : Bool := w.getLsbD 0

/-- OTP_RES.EXPECTED (R30). -/
def otpResExpected (w : Word) : Byte := w.extractLsb' 8 8

/-- OTP_RES.COMPUTED (R30). -/
def otpResComputed (w : Word) : Byte := w.extractLsb' 16 8

end Sys2Proof.Machine
end

