-- ==== Sys2Proof/Machine/Ops.lean ====
section
/-! DEFINITION. The named operations over the memories and registers (00_scope.md R12): reading and
writing bytes, one update per register, the end of an operation (`finish OK`, and `raise` as
60_exceptions.md R120 describes it), and the common check of R117. -/

namespace Sys2Proof.Machine

/-- The canonical form: indices strictly rising. No listed byte can equal what an unlisted index
reads as, since that is no value (R36). -/
def Memory.wf : Memory → Bool
  | [] => true
  | c :: cs => cs.all (fun d => decide (c.1 < d.1)) && Memory.wf cs

/-- Every listed index is below `cap` (R33–R35). -/
def Memory.below (cap : Nat) (m : Memory) : Bool := m.all (fun c => decide (c.1 < cap))

/-- The byte at index `a`, or none where nothing was written since reset (R36). -/
def Memory.read? : Memory → Nat → Option Byte
  | [], _ => none
  | (k, v) :: cs, a => if k = a then some v else Memory.read? cs a

/-- `M[a] <- b` (R12), keeping the canonical form. -/
def Memory.write : Memory → Nat → Byte → Memory
  | [], a, b => [(a, b)]
  | (k, v) :: cs, a, b =>
    if a < k then (a, b) :: (k, v) :: cs
    else if a = k then (a, b) :: cs
    else (k, v) :: Memory.write cs a b

/-- The bytes `bs` at the indices from `a` up, in increasing order (R48). -/
def Memory.writeBytes : Memory → Nat → List Byte → Memory
  | m, _, [] => m
  | m, a, b :: bs => Memory.writeBytes (m.write a b) (a + 1) bs

/-- `M[a]` (R12): a byte never written is a model fault (R36). -/
def readByte (id : MemId) (m : Memory) (a : Nat) : Except Fault Byte :=
  match m.read? a with
  | some b => .ok b
  | none => .error (.neverWrittenByte id a)

/-- `bytes(M, a, n)` (R12), read in increasing index order (R48). -/
def readBytes (id : MemId) (m : Memory) (a : Nat) : Nat → Except Fault (List Byte)
  | 0 => .ok []
  | n + 1 =>
    match readByte id m a with
    | .error f => .error f
    | .ok b =>
      match readBytes id m (a + 1) n with
      | .error f => .error f
      | .ok bs => .ok (b :: bs)

/-- `IN[a]`. -/
def readIn (s : State) (a : Nat) : Except Fault Byte := readByte .inp s.inMem a

/-- `bytes(IN, a, n)`. -/
def readInBytes (s : State) (a n : Nat) : Except Fault (List Byte) := readBytes .inp s.inMem a n

/-- `TABLE[x]` (R35). -/
def readTable (s : State) (x : Byte) : Except Fault Byte := readByte .table s.table x.toNat

/-- Goes on with what a read answers; a faulting read ends the step with that fault (R36; log
entry 13). -/
def withRead {α : Type} (r : Except Fault α) (k : α → Result) : Result :=
  match r with
  | .ok v => k v
  | .error f => .fault f

/-- The memory named `m` (R51). -/
def State.mem (s : State) : MemId → Memory
  | .inp => s.inMem
  | .out => s.outMem
  | .table => s.table

/-- The size of the memory named `m` (R33–R35). -/
def capacity (p : Params) : MemId → Nat
  | .inp => p.inCap
  | .out => p.outCap
  | .table => tableSize

/-- Replaces the memory named `m`. -/
def State.setMem (s : State) (m : MemId) (x : Memory) : State :=
  match m with
  | .inp => { s with inMem := x }
  | .out => { s with outMem := x }
  | .table => { s with table := x }

/-- `R.DESC <- v` (R22). -/
def State.setDesc (s : State) (v : Word) : State := { s with desc := v }

/-- `R.IN_LEN <- v` (R23). -/
def State.setInLen (s : State) (v : Word) : State := { s with inLen := v }

/-- The word that counts `n` bytes in OUT_LEN (R25). Where `n` does not fit 32 bits the spec states no
word (D33): a free value (log entry 4). -/
def outLenWord (desc inLen : Word) (n : Nat) : Word :=
  if n < 4294967296 then BitVec.ofNat 32 n else Config.freeOutLen desc inLen

/-- `R.OUT_LEN <- n` (R25). -/
def State.setOutLen (s : State) (n : Nat) : State :=
  { s with outLen := outLenWord s.desc s.inLen n }

/-- `R.CSUM_RES <- v` (R26). -/
def State.setCsumRes (s : State) (v : Word) : State := { s with csumRes := some v }

/-- `R.DEC_HDR <- v` (R27). -/
def State.setDecHdr (s : State) (v : Word) : State := { s with decHdr := some v }

/-- `R.ERR_CSUM <- v` (R28). -/
def State.setErrCsum (s : State) (v : Word) : State := { s with errCsum := some v }

/-- `R.ACK_RSN <- v` (R29). -/
def State.setAckRsn (s : State) (v : Word) : State := { s with ackRsn := some v }

/-- `R.OTP_RES <- v` (R30). -/
def State.setOtpRes (s : State) (v : Word) : State := { s with otpRes := some v }

/-- `OUT[0 .. len(bs)−1] <- bs` (R34); the other OUT bytes keep their values. -/
def State.putOut (s : State) (bs : List Byte) : State :=
  { s with outMem := s.outMem.writeBytes 0 bs }

/-- STATUS with code `c` and LAST_OP = DESC[7:0] (R24, R120; log entry 12). -/
def State.setStatus (s : State) (c : StatusCode) : State :=
  { s with status := statusWord (s.desc.extractLsb' 0 8) c }

/-- The host steps not yet taken (R53). -/
def State.setPending (s : State) (steps : List HostStep) : State := { s with pending := steps }

/-- Adds what a host read returned to the observation (R141). -/
def State.observe (s : State) (v : ReadValue) : State := { s with observed := s.observed ++ [v] }

/-- `raise <Code>` (R120): STATUS, OUT_LEN = 0, and the operation ends. The unit takes no trap and the
next step goes on as usual (R122, R123). -/
def raise (c : StatusCode) (s : State) : Result := .next ((s.setStatus c).setOutLen 0)

/-- `finish OK` (R12): the operation ends with STATUS.CODE = OK. -/
def finishOk (s : State) : Result := .next (s.setStatus .ok)

/-- `n = R.IN_LEN` (R62). -/
def inputLength (s : State) : Nat := s.inLen.toNat

/-- The common check of R117 that every operation except ACKCHK makes: IN_LEN above IN_CAP is
CAPACITY, and nothing is read. -/
def checkInput (p : Params) (s : State) (k : Result) : Result :=
  if p.inCap < inputLength s then raise .capacity s else k

end Sys2Proof.Machine
end

