-- ==== Sys2Proof/Machine/Operands.lean ====
section
/-! DEFINITION. How byte data is assembled and taken apart (20_memory.md R42–R44, 30_encoding.md
R64, R65): little-endian 16-bit values and the `cmd` byte. The descriptor's operand fields are
Decode.lean's. -/

namespace Sys2Proof.Machine

/-- The 16-bit value whose low byte comes first (R42). -/
def halfOfBytes (lo hi : Byte) : Half := hi ++ lo

/-- The low byte of a 16-bit value (R42). -/
def lowByte (v : Half) : Byte := v.extractLsb' 0 8

/-- The high byte of a 16-bit value (R42). -/
def highByte (v : Half) : Byte := v.extractLsb' 8 8

/-- The two bytes of a 16-bit value, the low one first (R42, R44). -/
def halfBytes (v : Half) : List Byte := [lowByte v, highByte v]

/-- `cmd = (category << 4) | (command << 1)` (R65): bit 0 is 0 (R64). -/
def cmdByte (cat : Category) (cmd : Command) : Byte :=
  (cat.setWidth 8 <<< 4) ||| (cmd.setWidth 8 <<< 1)

/-- `category = cmd >> 4` (R65). -/
def cmdByteCategory (b : Byte) : Category := (b >>> 4).setWidth 4

/-- `command = (cmd & 0xF) >> 1` (R65). -/
def cmdByteCommand (b : Byte) : Command := ((b &&& 0x0F) >>> 1).setWidth 3

end Sys2Proof.Machine
end

