-- ==== Sys2Proof/Machine/Checksum.lean ====
section
/-! DEFINITION. The checksum function and CSUM (40_checksum.md). -/

namespace Sys2Proof.Machine

/-- The 8-bit accumulator ACC8 after the bytes `bs`, started at `acc` (R79). -/
def acc8 (acc : Byte) : List Byte → Byte
  | [] => acc
  | b :: bs => acc8 (acc + b) bs

/-- `checksum(s) = (0xAA − sum8(s)) mod 256` (R78), by the byte-serial datapath of R79. -/
def checksum (bs : List Byte) : Byte := csumSeed - acc8 0 bs

/-- CSUM (R81) in a unit with parameters `p`. -/
def runCsum (p : Params) (s : State) : Result :=
  checkInput p s <|
    withRead (readInBytes s 0 (inputLength s)) fun bs =>
      finishOk ((s.setCsumRes (csumResWord (checksum bs))).setOutLen 0)

/-- CSUM (R81). -/
def execCsum (s : State) : Result := runCsum Config.params s

end Sys2Proof.Machine
end

