-- ==== Sys2Proof/Machine/Fdt.lean ====
section
/-! DEFINITION. The FDT base transform (44_fdt_base.md): FDTB. The formula of R111 governs; it is not
a rotation (C5). -/

namespace Sys2Proof.Machine

/-- `fdtBase(v) = (((v & 0xFFFE) * 0x80) | (v >> 1)) mod 65536` (R111), the product at full width. -/
def fdtBase (v : Half) : Half :=
  BitVec.ofNat 16 (((v.toNat &&& fdtMask) * fdtMul) ||| (v.toNat >>> 1))

/-- The base table of a table, word by word, little-endian (R112, R115); a byte left over is dropped
(R113). -/
def fdtBytes : List Byte → List Byte
  | lo :: hi :: rest => halfBytes (fdtBase (halfOfBytes lo hi)) ++ fdtBytes rest
  | _ => []

/-- `T = 2 * (n div 2)` (R112). -/
def fdtTotal (n : Nat) : Nat := 2 * (n / 2)

/-- FDTB (R112) in a unit with parameters `p`: IN[n−1] is not read when n is odd (R113). -/
def runFdtb (p : Params) (s : State) : Result :=
  checkInput p s <|
    if p.outCap < fdtTotal (inputLength s) then raise .capacity s
    else
      withRead (readInBytes s 0 (fdtTotal (inputLength s))) fun raw =>
        finishOk ((s.putOut (fdtBytes raw)).setOutLen (fdtTotal (inputLength s)))

/-- FDTB (R112). -/
def execFdtb (s : State) : Result := runFdtb Config.params s

end Sys2Proof.Machine
end

