-- ==== Sys2Proof/Machine/Frame.lean ====
section
/-! DEFINITION. The frame marshaller and unmarshaller and the acknowledgment check
(41_frame_codec.md): FENC, FDEC, ACKCHK. -/

namespace Sys2Proof.Machine

/-- The header of a message whose payload is `n` bytes long: the `cmd` byte and `length` = n + 1,
little-endian (R63, R85). -/
def frameHeader (cat : Category) (cmd : Command) (n : Nat) : List Byte :=
  cmdByte cat cmd :: halfBytes (BitVec.ofNat 16 (n + 1))

/-- The checksum byte of a frame: computed over header and payload, or the sentinel (R85, R87). -/
def frameChecksum (headerAndPayload : List Byte) (calcBit : Bool) : Byte :=
  if calcBit then checksum headerAndPayload else csumSentinel

/-- `encodeFrame` (R85): header, payload, checksum byte; no padding. -/
def encodeFrame (cat : Category) (cmd : Command) (pl : List Byte) (calcBit : Bool) : List Byte :=
  let body := frameHeader cat cmd pl.length ++ pl
  body ++ [frameChecksum body calcBit]

/-- The total length T of an encoded frame with payload length `n` (R86): with PAD, the smallest
multiple of BLOCK_SIZE that is at least 4 + n (R87). -/
def frameTotal (p : Params) (n : Nat) (pad : Bool) : Nat :=
  if pad then (4 + n + p.blockSize - 1) / p.blockSize * p.blockSize else 4 + n

/-- The frame followed by the zero bytes that bring it to length `total` (R86). -/
def padFrame (f : List Byte) (total : Nat) : List Byte := f ++ List.replicate (total - f.length) 0x00

/-- FENC (R86) in a unit with parameters `p`; the payload is read before the output is measured (log
entry 11). -/
def runFenc (p : Params) (cat : Category) (cmd : Command) (calcBit pad : Bool) (s : State) : Result :=
  checkInput p s <|
    if maxPayload < inputLength s then raise .encodeRange s
    else
      withRead (readInBytes s 0 (inputLength s)) fun pl =>
        if p.outCap < frameTotal p (inputLength s) pad then raise .capacity s
        else
          finishOk
            ((s.putOut (padFrame (encodeFrame cat cmd pl calcBit)
              (frameTotal p (inputLength s) pad))).setOutLen (frameTotal p (inputLength s) pad))

/-- FENC (R86). -/
def execFenc (cat : Category) (cmd : Command) (calcBit pad : Bool) (s : State) : Result :=
  runFenc Config.params cat cmd calcBit pad s

/-- `N = declared − 1` (R88, C2). -/
def payloadLength (declared : Half) : Nat := declared.toNat - 1

/-- The data span, which is the index of the checksum byte: `span = 3 + N` (R88). -/
def dataSpan (declared : Half) : Nat := hdrSize + payloadLength declared

/-- The last part of FDEC (R89): the payload goes to OUT if it fits. -/
def deliverPayload (p : Params) (b0 : Byte) (declared : Half) (skipped : Bool) (s : State) : Result :=
  if p.outCap < payloadLength declared then raise .capacity s
  else
    withRead (readInBytes s hdrSize (payloadLength declared)) fun pl =>
      finishOk
        (((s.putOut pl).setDecHdr (decHdrWord b0 skipped declared)).setOutLen (payloadLength declared))

/-- FDEC's checksum step (R89): the sentinel skips it; a mismatch records both values. -/
def verifyFrame (p : Params) (b0 : Byte) (declared : Half) (s : State) : Result :=
  withRead (readIn s (dataSpan declared)) fun rcv =>
    if rcv = csumSentinel then deliverPayload p b0 declared true s
    else
      withRead (readInBytes s 0 (dataSpan declared)) fun body =>
        if checksum body = rcv then deliverPayload p b0 declared false s
        else raise .checksumMismatch (s.setErrCsum (errCsumWord (checksum body) rcv))

/-- FDEC (R89) in a unit with parameters `p`: the length checks in the order of R121, then the
checksum step. -/
def runFdec (p : Params) (s : State) : Result :=
  checkInput p s <|
    if inputLength s < hdrSize then raise .truncatedFrame s
    else
      withRead (readInBytes s 0 hdrSize) fun hdr =>
        let b0 := hdr.getD 0 0
        let declared := halfOfBytes (hdr.getD 1 0) (hdr.getD 2 0)
        if declared = 0 then raise .truncatedFrame s
        else if inputLength s < dataSpan declared + 1 then raise .truncatedFrame s
        else verifyFrame p b0 declared s

/-- FDEC (R89). -/
def execFdec (s : State) : Result := runFdec Config.params s

/-- ACKCHK (R93): both checks always run and both reasons are recorded (R94); IN_LEN is not read. -/
def execAckchk (cat : Category) (cmd : Command) (s : State) : Result :=
  let catBad := cat != ackCategory
  let cmdBad := cmd != ackCommand
  let t := (s.setAckRsn (ackRsnWord catBad cmdBad)).setOutLen 0
  if catBad || cmdBad then raise .invalidAck t else finishOk t

end Sys2Proof.Machine
end

