-- ==== Sys2Proof/Machine/Image.lean ====
section
/-! DEFINITION. The packed-pixel unpacker (43_image_unpack.md): IMGU. -/

namespace Sys2Proof.Machine

/-- `((x & 0x0F) << 8) | y`: samples s0 and s2 of R105. -/
def sampleLowNibble (x y : Byte) : Sample := ((x &&& 0x0F).setWidth 12 <<< 8) ||| y.setWidth 12

/-- `(x << 4) | (y >> 4)`: samples s1 and s3 of R105. -/
def sampleHighNibble (x y : Byte) : Sample := (x.setWidth 12 <<< 4) ||| (y >>> 4).setWidth 12

/-- `unpack(c)` (R105): four 12-bit samples of a chunk of six bytes. -/
def unpackChunk (c0 c1 c2 c3 c4 c5 : Byte) : List Sample :=
  [sampleLowNibble c0 c1, sampleHighNibble c3 c0, sampleLowNibble c5 c2, sampleHighNibble c4 c5]

/-- The samples of a stream, chunk by chunk (R107, R110). -/
def unpackStream : List Byte → List Sample
  | c0 :: c1 :: c2 :: c3 :: c4 :: c5 :: cs => unpackChunk c0 c1 c2 c3 c4 c5 ++ unpackStream cs
  | _ => []

/-- `store(s, wide)` (R106): the low byte, or 16 bits little-endian (R44). -/
def storeSample (wide : Bool) (s : Sample) : List Byte :=
  if wide then halfBytes (s.setWidth 16) else [s.setWidth 8]

/-- The output bytes of a stream (R107). -/
def imageBytes (wide : Bool) (stream : List Byte) : List Byte :=
  (unpackStream stream).flatMap (storeSample wide)

/-- `T = K * 4 * w` (R107), for an input of `n` bytes. -/
def imageTotal (n : Nat) (wide : Bool) : Nat := n / chunkIn * chunkOut * (if wide then 2 else 1)

/-- IMGU (R107) in a unit with parameters `p`; a partial chunk is rejected (R108). -/
def runImgu (p : Params) (wide : Bool) (s : State) : Result :=
  checkInput p s <|
    if inputLength s % chunkIn ≠ 0 then raise .badImageLength s
    else if p.outCap < imageTotal (inputLength s) wide then raise .capacity s
    else
      withRead (readInBytes s 0 (inputLength s)) fun stream =>
        finishOk ((s.putOut (imageBytes wide stream)).setOutLen (imageTotal (inputLength s) wide))

/-- IMGU (R107). -/
def execImgu (wide : Bool) (s : State) : Result := runImgu Config.params wide s

end Sys2Proof.Machine
end

