-- ==== Sys2Proof/Machine/Otp.lean ====
section
/-! DEFINITION. The OTP hash verifier (42_otp_hash.md): OTPV. -/

namespace Sys2Proof.Machine

/-- The running state after the bytes `o`, the first of them at index `i`, under a table `T` (the loop
of R100): byte 25 is skipped. -/
def otpState (T : Byte → Byte) (i : Nat) (st : Byte) : List Byte → Byte
  | [] => st
  | b :: o => otpState T (i + 1) (if i = otpHashOffset then st else T (st ^^^ b)) o

/-- `otpHash(o, T)` (R100): the bitwise NOT of the running state. -/
def otpHash (o : List Byte) (T : Byte → Byte) : Byte := ~~~ otpState T 0 0 o

/-- The same loop reading the table through `look`, which can fault (R36); only the entries that the
walk indexes are read (R101). -/
def otpWalk (look : Byte → Except Fault Byte) (i : Nat) (st : Byte) : List Byte → Except Fault Byte
  | [] => .ok st
  | b :: o =>
    if i = otpHashOffset then otpWalk look (i + 1) st o
    else
      match look (st ^^^ b) with
      | .error f => .error f
      | .ok st' => otpWalk look (i + 1) st' o

/-- OTPV (R101) in a unit with parameters `p`. -/
def runOtpv (p : Params) (s : State) : Result :=
  checkInput p s <|
    if inputLength s < otpHashOffset + 1 then raise .otpTooShort s
    else
      withRead (readInBytes s 0 (inputLength s)) fun o =>
        withRead (otpWalk (readTable s) 0 0 o) fun st =>
          finishOk ((s.setOtpRes (otpResWord (o.getD otpHashOffset 0) (~~~ st))).setOutLen 0)

/-- OTPV (R101). -/
def execOtpv (s : State) : Result := runOtpv Config.params s

end Sys2Proof.Machine
end

