-- ==== Sys2Proof/Machine/Dispatch.lean ====
section
/-! DEFINITION. One arm per operation (30_encoding.md R59): the meaning of an operation started in a
state whose DESC holds its descriptor (60_exceptions.md R117). -/

namespace Sys2Proof.Machine

def exec (i : Instr) (s : State) : Host.Outcome State Fault Refusal :=
  match i with
  | .csum => Sys2Proof.Machine.execCsum s
  | .fenc cat cmd calcBit pad => Sys2Proof.Machine.execFenc cat cmd calcBit pad s
  | .fdec => Sys2Proof.Machine.execFdec s
  | .ackchk cat cmd => Sys2Proof.Machine.execAckchk cat cmd s
  | .otpv => Sys2Proof.Machine.execOtpv s
  | .imgu wide => Sys2Proof.Machine.execImgu wide s
  | .fdtb => Sys2Proof.Machine.execFdtb s

end Sys2Proof.Machine
end

