-- ==== Sys2Proof/Machine/Access.lean ====
section
/-! DEFINITION. What one host step does (10_state.md R21–R23, R31, R37, 20_memory.md R47–R53,
70_reset_and_hazards.md R132): register and memory accesses, the start of an operation, reset. -/

namespace Sys2Proof.Machine

/-- Starts an operation on the descriptor in DESC (R22, R117): it runs whole before the next host step
(R52). A descriptor that selects no operation ends ILLEGAL_OPERATION (R66, R118). -/
def startOperation (s : State) : Result :=
  match decode s.desc with
  | .ok i => exec i s
  | .error _ => raise .illegalOperation s

/-- A host write of `v` to register `r` (R31): DESC starts an operation, IN_LEN stores all 32 bits,
the read-only registers ignore the write, and no other register is mapped (R37). -/
def hostWriteReg (r : Nat) (v : Word) (s : State) : Result :=
  match r with
  | 0 => startOperation (s.setDesc v)
  | 1 => .next (s.setInLen v)
  | 2 | 3 | 4 | 5 | 6 | 7 | 8 => .next s
  | _ => .refused (.unmappedRegister r)

/-- A read of a result register: its value goes to the observation; one never written since reset is
a model fault (R31, R36, R53, and R132: "so a read of one faults until it is written again"). -/
def readResult (r : Nat) (v : Option Word) (s : State) : Result :=
  match v with
  | some w => .next (s.observe (.reg w))
  | none => .fault (.neverWrittenReg r)

/-- A host read of register `r` (R31); it changes nothing in the unit (R49). -/
def hostReadReg (r : Nat) (s : State) : Result :=
  match r with
  | 0 => .next (s.observe (.reg s.desc))
  | 1 => .next (s.observe (.reg s.inLen))
  | 2 => .next (s.observe (.reg s.status))
  | 3 => .next (s.observe (.reg s.outLen))
  | 4 => readResult 4 s.csumRes s
  | 5 => readResult 5 s.decHdr s
  | 6 => readResult 6 s.errCsum s
  | 7 => readResult 7 s.ackRsn s
  | 8 => readResult 8 s.otpRes s
  | _ => .refused (.unmappedRegister r)

/-- A host write of one byte (R33–R35, R47); an index outside the memory is refused (R37). -/
def hostWriteMem (p : Params) (m : MemId) (a : Nat) (b : Byte) (s : State) : Result :=
  if a < capacity p m then .next (s.setMem m ((s.mem m).write a b))
  else .refused (.indexOutsideMemory m a)

/-- A host read of one byte (R47): it goes to the observation; a byte never written since reset is a
model fault (R36), an index outside the memory is refused (R37). -/
def hostReadMem (p : Params) (m : MemId) (a : Nat) (s : State) : Result :=
  if a < capacity p m then
    withRead (readByte m (s.mem m) a) fun b => .next (s.observe (.byte b))
  else .refused (.indexOutsideMemory m a)

/-- Reset (R132): every register and memory of the unit as R40 says; the host's side stays
(log entry 14). -/
def resetUnit (s : State) : State :=
  { State.reset with pending := s.pending, observed := s.observed }

/-- One host step, in a state from whose pending steps it has been taken. -/
def hostStep (h : HostStep) (s : State) : Result :=
  match h with
  | .writeReg r v => hostWriteReg r v s
  | .readReg r => hostReadReg r s
  | .writeMem m a b => hostWriteMem Config.params m a b s
  | .readMem m a => hostReadMem Config.params m a s
  | .reset => .next (resetUnit s)

/-- The unit takes the host's next step (R52, R53); with none pending it is idle and holds its state
(R131; log entry 10). -/
def takeStep (s : State) : Result :=
  match s.pending with
  | [] => .next s
  | h :: rest => hostStep h (s.setPending rest)

/-- The host step that writes the descriptor of `nbits` bits `w` to DESC (R22; log entry 9). -/
def descWrite (nbits w : Nat) : HostStep := .writeReg 0 (BitVec.ofNat 32 (w % 2 ^ nbits))

end Sys2Proof.Machine
end

