-- ==== Sys2Proof/Machine/Step.lean ====
section
/-! DEFINITION. One step of the machine: the host's next access, with the whole operation it starts
(20_memory.md R52). -/

namespace Sys2Proof.Machine

/-- One step: three outcomes, a next state, a model fault (R36), a refusal (R37). -/
def step (s : State) : Host.Outcome State Fault Refusal := takeStep s

/-- `s` with a host write of the descriptor `w` to DESC as its very next step: how an operation comes
to run in a unit that fetches nothing (R20, R22; log entry 9). -/
def State.withFetchWord (s : State) (nbits w : Nat) : State :=
  s.setPending (descWrite nbits w :: s.pending)

end Sys2Proof.Machine
end

