-- ==== Sys2Proof/Machine/Asm.lean ====
section
/-! DEFINITION. The assembler and the disassembler (30_encoding.md R73, R75, R76) and the host-action
notation (R74). They have no effect on what the unit does (D29). What the spec leaves open about the
text is in log entry 17. -/

namespace Sys2Proof.Machine

/-- Why a line is refused (R73, R96). -/
inductive AsmError where
  /-- A number is out of range; "it never truncates one". -/
  | outOfRange
  /-- The text is no line of the syntax. -/
  | noSuchLine
deriving DecidableEq, Repr

/-- The operation a well-formed line names, or none for `.desc`. -/
def asmInstr? : AsmLine → Option Instr
  | .csum => some .csum
  | .fenc cat cmd calcBit pad => some (.fenc (BitVec.ofNat 4 cat) (BitVec.ofNat 3 cmd) calcBit pad)
  | .fdec => some .fdec
  | .ackchk cat cmd => some (.ackchk (BitVec.ofNat 4 cat) (BitVec.ofNat 3 cmd))
  | .otpv => some .otpv
  | .imgu wide => some (.imgu wide)
  | .fdtb => some .fdtb
  | .desc _ => none

/-- The value of a `.desc` line. -/
def asmValue : AsmLine → Nat
  | .desc value => value
  | _ => 0

/-- The descriptor of a line (R73): a line with a number out of range is refused. -/
def assemble (l : AsmLine) : Except AsmError Word :=
  if l.wellFormed then
    match asmInstr? l with
    | some i => .ok (encode i)
    | none => .ok (BitVec.ofNat 32 (asmValue l))
  else .error .outOfRange

/-- The line of an operation (R76). -/
def asmOfInstr : Instr → AsmLine
  | .csum => .csum
  | .fenc cat cmd calcBit pad => .fenc cat.toNat cmd.toNat calcBit pad
  | .fdec => .fdec
  | .ackchk cat cmd => .ackchk cat.toNat cmd.toNat
  | .otpv => .otpv
  | .imgu wide => .imgu wide
  | .fdtb => .fdtb

/-- The line a descriptor is printed as (R76): an illegal one is a `.desc`. -/
def disassemble (d : Word) : AsmLine :=
  match decode d with
  | .ok i => asmOfInstr i
  | .error _ => .desc d.toNat

/-- A hexadecimal digit. -/
def hexDigit (n : Nat) : Char := ("0123456789ABCDEF".toList).getD n '0'

/-- The last `k` hexadecimal digits of `n`. -/
def hexDigits : Nat → Nat → List Char
  | 0, _ => []
  | k + 1, n => hexDigits k (n / 16) ++ [hexDigit (n % 16)]

/-- `0x` and `k` hexadecimal digits. -/
def hexText (k n : Nat) : List Char := "0x".toList ++ hexDigits k n

/-- The text of a line, as R76 prints it: `cat` and `cmd` in hexadecimal, `.desc` with 8 digits. -/
def printLine : AsmLine → List Char
  | .csum => "csum".toList
  | .fenc cat cmd calcBit pad =>
    "fenc ".toList ++ hexText 1 cat ++ ", ".toList ++ hexText 1 cmd
      ++ (if calcBit then ", calc".toList else []) ++ (if pad then ", pad".toList else [])
  | .fdec => "fdec".toList
  | .ackchk cat cmd => "ackchk ".toList ++ hexText 1 cat ++ ", ".toList ++ hexText 1 cmd
  | .otpv => "otpv".toList
  | .imgu wide => if wide then "imgu.w".toList else "imgu".toList
  | .fdtb => "fdtb".toList
  | .desc value => ".desc ".toList ++ hexText 8 value

/-- A word of a line, or the comma between two operands. -/
inductive Token where
  | word (cs : List Char)
  | comma
deriving DecidableEq, Repr

/-- Ends the word gathered so far (kept in reverse). -/
def flushWord (acc : List Char) (ts : List Token) : List Token :=
  if acc.isEmpty then ts else .word acc.reverse :: ts

/-- Splits a line into words and commas; a comment starts with `;` (R74). -/
def tokens (acc : List Char) : List Char → List Token
  | [] => flushWord acc []
  | c :: cs =>
    if c = ';' then flushWord acc []
    else if c = ' ' then flushWord acc (tokens [] cs)
    else if c = ',' then flushWord acc (.comma :: tokens [] cs)
    else tokens (c :: acc) cs

/-- The value of a digit, of either case, in a base up to 16. -/
def digitValue? (base : Nat) (c : Char) : Option Nat :=
  let v := if '0' ≤ c ∧ c ≤ '9' then c.toNat - '0'.toNat
    else if 'a' ≤ c ∧ c ≤ 'f' then c.toNat - 'a'.toNat + 10
    else if 'A' ≤ c ∧ c ≤ 'F' then c.toNat - 'A'.toNat + 10
    else 16
  if v < base then some v else none

/-- The number that digits write after a number read so far. -/
def readDigits? (base n : Nat) : List Char → Option Nat
  | [] => some n
  | c :: cs =>
    match digitValue? base c with
    | some v => readDigits? base (base * n + v) cs
    | none => none

/-- A number "written in decimal or with a `0x` prefix" (R73). -/
def number? : List Char → Option Nat
  | [] => none
  | '0' :: 'x' :: c :: cs => readDigits? 16 0 (c :: cs)
  | c :: cs => readDigits? 10 0 (c :: cs)

/-- FENC's keywords, each present or absent (R73). -/
def fencFlags? (ts : List Token) : Option (Bool × Bool) :=
  if ts = [] then some (false, false)
  else if ts = [.comma, .word "calc".toList] then some (true, false)
  else if ts = [.comma, .word "pad".toList] then some (false, true)
  else if ts = [.comma, .word "calc".toList, .comma, .word "pad".toList] then some (true, true)
  else none

/-- A line of the syntax of R73 from its words and commas. -/
def lineOfTokens? : List Token → Option AsmLine
  | [.word w] =>
    if w = "csum".toList then some .csum
    else if w = "fdec".toList then some .fdec
    else if w = "otpv".toList then some .otpv
    else if w = "imgu".toList then some (.imgu false)
    else if w = "imgu.w".toList then some (.imgu true)
    else if w = "fdtb".toList then some .fdtb
    else none
  | [.word w, .word v] => if w = ".desc".toList then (number? v).map .desc else none
  | .word w :: .word a :: .comma :: .word b :: ts =>
    match number? a, number? b with
    | some cat, some cmd =>
      if w = "fenc".toList then (fencFlags? ts).map fun f => .fenc cat cmd f.1 f.2
      else if w = "ackchk".toList ∧ ts = [] then some (.ackchk cat cmd)
      else none
    | _, _ => none
  | _ => none

/-- Assembles the text of one line (R73). -/
def assembleText (text : List Char) : Except AsmError Word :=
  match lineOfTokens? (tokens [] text) with
  | some l => assemble l
  | none => .error .noSuchLine

/-- The host actions of R74, and a line of R73. -/
inductive HostAction where
  /-- `wr <REG>, <value>` -/
  | wr (r : Nat) (v : Word)
  /-- `wrb <MEM>[<a>], b0 b1 …` -/
  | wrb (m : MemId) (a : Nat) (bs : List Byte)
  /-- `rd <REG>` -/
  | rd (r : Nat)
  /-- `rdb <MEM>[<a>..<b>]`, `b` included -/
  | rdb (m : MemId) (a b : Nat)
  /-- `fill TABLE, identity` -/
  | fillTableIdentity
  /-- a line of R73: "one host write of the descriptor shown to DESC" -/
  | line (l : AsmLine)
deriving DecidableEq, Repr

/-- The writes of `bs` at the indices from `a` up. -/
def writeSteps (m : MemId) (a : Nat) : List Byte → List HostStep
  | [] => []
  | b :: bs => .writeMem m a b :: writeSteps m (a + 1) bs

/-- The host steps an action stands for (R73, R74). -/
def actionSteps : HostAction → Except AsmError (List HostStep)
  | .wr r v => .ok [.writeReg r v]
  | .wrb m a bs => .ok (writeSteps m a bs)
  | .rd r => .ok [.readReg r]
  | .rdb m a b => .ok ((List.range (b + 1 - a)).map fun i => .readMem m (a + i))
  | .fillTableIdentity => .ok (writeSteps .table 0 ((List.range tableSize).map (BitVec.ofNat 8)))
  | .line l =>
    match assemble l with
    | .ok d => .ok [.writeReg 0 d]
    | .error e => .error e

end Sys2Proof.Machine
end

