-- ==== Sys2Proof/Safety.lean ====
section
/-! DEFINITION. The terms in which claims about the unit are stated: a good run (70_reset_and_hazards.md
R141), the unit alone without the host's side, bytes held by a memory, a state in which an operation
starts, and the invariant that every step keeps. -/

namespace Sys2Proof.Machine

/-- `k` steps from `s` make a good run: no read faulted and no step was refused (R141). -/
def GoodRun (k : Nat) (s : State) : Prop := ∃ t : State, Sys2Proof.core.run k s = .next t

/-- The unit alone: the twelve fields of R41, the host's side emptied. -/
def unitOf (s : State) : State := { s with pending := [], observed := [] }

/-- `m` holds the bytes `bs` at the indices from `a` up. -/
def Memory.Holds (m : Memory) (a : Nat) (bs : List Byte) : Prop :=
  ∀ i, i < bs.length → m.read? (a + i) = bs[i]?

/-- The input byte sequence of an operation started in `s` is `bs`: IN_LEN counts it and IN holds it
(R23, R33). -/
def InputIs (s : State) (bs : List Byte) : Prop :=
  inputLength s = bs.length ∧ s.inMem.Holds 0 bs

/-- DESC holds a descriptor that selects `i`: the state in which the unit starts `i` (R22, R117). -/
def StartedBy (i : Instr) (s : State) : Prop := decode s.desc = .ok i

/-- The memories are in canonical form and list no index outside their capacity (R33–R35). -/
def MemoriesWellFormed (s : State) : Prop :=
  ∀ m, (s.mem m).wf = true ∧ (s.mem m).below (capacity Config.params m) = true

/-- The value of register `r`, or none where it holds none: a result register never written, or a
number that is not mapped (R21, R36, R37). -/
def registerValue (s : State) : Nat → Option Word
  | 0 => some s.desc
  | 1 => some s.inLen
  | 2 => some s.status
  | 3 => some s.outLen
  | 4 => s.csumRes
  | 5 => s.decHdr
  | 6 => s.errCsum
  | 7 => s.ackRsn
  | 8 => s.otpRes
  | _ => none

/-- The reserved fields of register `r` are 0 in `w` (R24, R26–R30, U16). -/
def ReservedFieldsZero (w : Word) : Nat → Prop
  | 2 => w.extractLsb' 16 16 = 0
  | 4 => w.extractLsb' 8 24 = 0
  | 5 => w.extractLsb' 9 7 = 0
  | 6 => w.extractLsb' 16 16 = 0
  | 7 => w.extractLsb' 2 30 = 0
  | 8 => w.extractLsb' 1 7 = 0 ∧ w.extractLsb' 24 8 = 0
  | _ => True

/-- Reserved fields hold 0 wherever the register holds a value (R31). -/
def ReservedBitsZero (s : State) : Prop :=
  ∀ r w, registerValue s r = some w → ReservedFieldsZero w r

/-- STATUS.CODE is one of the ten assigned codes (R116, U14), and OUT_LEN is 0 unless it is OK (R25). -/
def StatusLegal (s : State) : Prop :=
  (statusCodeField s.status).toNat ≤ 9 ∧ (statusCodeField s.status ≠ 0x01 → s.outLen = 0)

/-- OUT holds every byte that OUT_LEN counts, all of them inside OUT (R25, R34). -/
def OutputHeld (s : State) : Prop :=
  s.outLen.toNat ≤ Config.params.outCap ∧
  ∀ a, a < s.outLen.toNat → (s.outMem.read? a).isSome = true

/-- The results agree with each other: DEC_HDR.DLEN is at least 1 (a frame of declared length 0 is
TRUNCATED_FRAME, R89), ERR_CSUM records two different bytes (R28, R89), and OTP_RES.MATCH says whether
its two hashes are equal (R30, R101). -/
def ResultsConsistent (s : State) : Prop :=
  (∀ w ∈ s.decHdr, decHdrDlen w ≠ 0) ∧
  (∀ w ∈ s.errCsum, errCsumExpected w ≠ errCsumReceived w ∧ errCsumReceived w ≠ 0x88) ∧
  (∀ w ∈ s.otpRes, (otpResMatch w = true ↔ otpResExpected w = otpResComputed w))

/-- How many bytes `i` started in `s` writes to OUT if it ends OK: T of R86, R107 and R112, N of R89, and
0 for the operations that produce no byte sequence (R25). -/
def outputLength (i : Instr) (s : State) : Nat :=
  match i with
  | .fenc _ _ _ pad => frameTotal Config.params (inputLength s) pad
  | .fdec => payloadLength (halfOfBytes ((s.inMem.read? 1).getD 0) ((s.inMem.read? 2).getD 0))
  | .imgu wide => imageTotal (inputLength s) wide
  | .fdtb => fdtTotal (inputLength s)
  | .csum => 0
  | .ackchk _ _ => 0
  | .otpv => 0

/-- How many bytes `i` has written to OUT when it was started in `s` and ended in `t`: none on an error
(R120). -/
def bytesWritten (i : Instr) (s t : State) : Nat :=
  if statusCodeField t.status = 0x01 then outputLength i s else 0

/-- What every step keeps. -/
structure UnitInvariant (s : State) : Prop where
  memories : MemoriesWellFormed s
  reserved : ReservedBitsZero s
  status : StatusLegal s
  output : OutputHeld s
  results : ResultsConsistent s

end Sys2Proof.Machine
end

