-- ==== Sys2Proof/Certificates/Slice0/Obligations.lean ====
section
/-! DEFINITION. The statements for the provers, from the numbered rules of spec/. Formulas are written
out as the rules write them, on natural numbers (00_scope.md R11), not through the model's datapaths.
`Config.params` is opaque, so every statement holds for every IN_CAP, OUT_CAP and BLOCK_SIZE. -/

open Sys2Proof Sys2Proof.Machine

namespace Sys2Proof.Spec

/-- `sum(s)`, the byte sum before any reduction (R13). -/
def byteSum (bs : List Byte) : Nat := (bs.map BitVec.toNat).sum

/-- The 16-bit little-endian value `lo | (hi << 8)` (R42, R43, R70). -/
def half (lo hi : Byte) : Nat := lo.toNat ||| (hi.toNat <<< 8)

/-- The bytes written to OUT are `bs`, at the indices 0 .. len(bs)−1; every other byte of OUT reads as
before (R34). -/
def OutputIs (s t : State) (bs : List Byte) : Prop :=
  ∀ a, t.outMem.read? a = if a < bs.length then bs[a]? else s.outMem.read? a

/-- The state after an error with STATUS = `w` that records no detail (R120). -/
def errorState (s : State) (w : Word) : State := { s with status := w, outLen := 0 }

/-- T of FENC (R86): the frame's length, rounded up to a multiple of BLOCK_SIZE when PAD = 1. -/
def encodedLength (n : Nat) (pad : Bool) : Nat :=
  if pad then ((4 + n + Config.params.blockSize - 1) / Config.params.blockSize) * Config.params.blockSize
  else 4 + n

/-- DEC_HDR as R89 writes it. -/
def decHdr (b0 skipped declared : Nat) : Word :=
  BitVec.ofNat 32 ((b0 >>> 4) ||| (((b0 &&& 0xF) >>> 1) <<< 4) ||| ((b0 &&& 1) <<< 7)
    ||| (skipped <<< 8) ||| (declared <<< 16))

/-- `t` is `s` after an FDEC that delivered the payload `pl` (R89). -/
def Delivered (s t : State) (b0 : Byte) (skipped declared : Nat) (pl : List Byte) : Prop :=
  t = { s with outMem := t.outMem, outLen := BitVec.ofNat 32 pl.length,
               decHdr := some (decHdr b0.toNat skipped declared), status := 0x00000301 } ∧
  OutputIs s t pl

/-- The samples of a chunk as R105 writes them. -/
def sample (c : Nat → Nat) : Nat → Nat
  | 0 => ((c 0 &&& 0x0F) <<< 8) ||| c 1
  | 1 => (c 3 <<< 4) ||| (c 0 >>> 4)
  | 2 => ((c 5 &&& 0x0F) <<< 8) ||| c 2
  | _ => (c 4 <<< 4) ||| (c 5 >>> 4)

/-- `fdtBase` as R111 writes it. -/
def fdtBase (v : Nat) : Nat := (((v &&& 0xFFFE) * 0x80) ||| (v >>> 1)) % 65536

/-- The frame of a message as R85 writes it: `c` is its checksum byte. -/
def frame (cat : Category) (cmd : Command) (pl : List Byte) (c : Byte) : List Byte :=
  [BitVec.ofNat 8 ((cat.toNat <<< 4) ||| (cmd.toNat <<< 1)), BitVec.ofNat 8 ((pl.length + 1) &&& 0xFF),
    BitVec.ofNat 8 ((pl.length + 1) >>> 8)] ++ pl ++ [c]

/-- The bytes a frame's checksum covers (R63): header and payload. -/
def covered (cat : Category) (cmd : Command) (pl : List Byte) : List Byte :=
  (frame cat cmd pl 0).take (3 + pl.length)

/-- The index into TABLE at step `i` of the walk over `o` under a table `T` (R100): `st ^ o[i]`. -/
def walkIndex (T : Byte → Byte) (o : List Byte) (i : Nat) : Nat :=
  (otpState T 0 0 (o.take i) ^^^ o.getD i 0).toNat

end Sys2Proof.Spec

open Sys2Proof.Spec

/-! ### Reset, host accesses, the step -/

/-- R40: the state after reset. -/
def Obligations.ResetLeavesTheStatedState : Prop :=
  State.reset.desc = 0 ∧ State.reset.inLen = 0 ∧ State.reset.status = 0 ∧ State.reset.outLen = 0 ∧
  (∀ r, 4 ≤ r → r ≤ 8 → hostReadReg r State.reset = .fault (.neverWrittenReg r)) ∧
  (∀ m a, (State.reset.mem m).read? a = none) ∧
  (∀ m a, a < capacity Config.params m →
    hostReadMem Config.params m a State.reset = .fault (.neverWrittenByte m a))

/-- R132: a reset step leaves the unit in the state of R40, whatever it held. That the host's other
steps remain is the model's choice (log entry 14). -/
def Obligations.ResetStepRestoresTheUnit : Prop :=
  ∀ s rest, s.pending = .reset :: rest →
    ∃ t, step s = .next t ∧ unitOf t = State.reset ∧ t.pending = rest

/-- R22, R117: a DESC write of a descriptor that decodes to `i` sets DESC and runs `exec i`, in one
step; `withFetchWord`, the model's own (log entry 9), places such a write. -/
def Obligations.StepRunsTheDecodedOperation : Prop :=
  (∀ s d rest i, s.pending = .writeReg 0 d :: rest → decode d = .ok i →
    step s = exec i { s with desc := d, pending := rest }) ∧
  (∀ (s : State) nbits w i, decodeTableWord nbits w = some i →
    step (s.withFetchWord nbits w) = exec i { s with desc := BitVec.ofNat 32 (w % 2 ^ nbits) })

/-- R66, R118: which descriptors are illegal, and what writing one does. The table pairs an operation
code with its must-be-0 bits (R60). -/
def Obligations.IllegalDescriptorsEndAtOnce : Prop :=
  (∀ d : Word, (∃ e, decode d = .error e) ↔
    (d.extractLsb' 0 8 = 0 ∨ 8 ≤ (d.extractLsb' 0 8).toNat ∨
      ∃ p ∈ ([(0x01, 0xFFFFFF00), (0x02, 0xFFFC8000), (0x03, 0xFFFFFF00), (0x04, 0xFFFF8000),
        (0x05, 0xFFFFFF00), (0x06, 0xFFFBFF00), (0x07, 0xFFFFFF00)] : List (Byte × Word)),
        d.extractLsb' 0 8 = p.1 ∧ d &&& p.2 ≠ 0)) ∧
  (∀ s d rest e, s.pending = .writeReg 0 d :: rest → decode d = .error e →
    step s = .next (errorState { s with desc := d, pending := rest }
      (BitVec.ofNat 32 (0x07 ||| ((d.extractLsb' 0 8).toNat <<< 8))))) ∧
  (∀ d ∈ ([0x00000000, 0x00000008, 0x00008002, 0x00000101] : List Word), ∃ e, decode d = .error e)

/-- R31: what a host write and a host read of a register do. The reserved fields' clause has as its
premise the part of `UnitInvariant` that it rests on. -/
def Obligations.RegistersAnswerTheHost : Prop :=
  ∀ s rest,
    (∀ r v, 2 ≤ r → r ≤ 8 → s.pending = .writeReg r v :: rest →
      ∃ t, step s = .next t ∧ unitOf t = unitOf s) ∧
    (∀ v t, s.pending = .writeReg 0 v :: rest → step s = .next t → t.desc = v) ∧
    (∀ v, s.pending = .writeReg 1 v :: rest →
      ∃ t, step s = .next t ∧ unitOf t = unitOf { s with inLen := v }) ∧
    (∀ r w, s.pending = .readReg r :: rest → registerValue s r = some w →
      ∃ t, step s = .next t ∧ t.observed = s.observed ++ [.reg w] ∧
        (ReservedBitsZero s → ReservedFieldsZero w r)) ∧
    (∀ r, 4 ≤ r → r ≤ 8 → s.pending = .readReg r :: rest → registerValue s r = none →
      step s = .fault (.neverWrittenReg r))

/-- R37: the refused accesses. No operation makes one: none ends refused, a read on which one faults is
inside IN or TABLE, of a byte never written, and none writes at or above OUT's capacity. -/
def Obligations.AccessesOutsideTheMapAreRefused : Prop :=
  (∀ s rest r v, 9 ≤ r → (s.pending = .writeReg r v :: rest ∨ s.pending = .readReg r :: rest) →
    step s = .refused (.unmappedRegister r)) ∧
  (∀ s rest m a b, (m = .inp → Config.params.inCap ≤ a) → (m = .out → Config.params.outCap ≤ a) →
    (m = .table → 256 ≤ a) →
    (s.pending = .writeMem m a b :: rest ∨ s.pending = .readMem m a :: rest) →
    step s = .refused (.indexOutsideMemory m a)) ∧
  (∀ i s q, exec i s ≠ .refused q) ∧
  (∀ i s f, exec i s = .fault f → ∃ m a, f = .neverWrittenByte m a ∧ m ≠ .out ∧
    a < capacity Config.params m ∧ (s.mem m).read? a = none) ∧
  (∀ i s t a, exec i s = .next t → Config.params.outCap ≤ a → t.outMem.read? a = s.outMem.read? a)

/-- R53 for the memories: a host write to a byte is what later reads of that byte see, and every other
byte and register is as before; a read of a byte gives the value held, and one never written faults
(R36). The form of the host's side, `pending` and `observed`, is the model's choice (log entries 1, 2). -/
def Obligations.MemoryReadsSeeTheLatestWrite : Prop :=
  ∀ s rest m a, a < capacity Config.params m →
    (∀ b, s.pending = .writeMem m a b :: rest →
      ∃ t, step s = .next t ∧ t.pending = rest ∧ unitOf t = unitOf (s.setMem m (t.mem m)) ∧
        ∀ c, (t.mem m).read? c = if c = a then some b else (s.mem m).read? c) ∧
    (∀ b, s.pending = .readMem m a :: rest → (s.mem m).read? a = some b →
      ∃ t, step s = .next t ∧ t.observed = s.observed ++ [.byte b] ∧ unitOf t = unitOf s) ∧
    (s.pending = .readMem m a :: rest → (s.mem m).read? a = none →
      step s = .fault (.neverWrittenByte m a))

/-- R49: reads change nothing, and only a DESC write starts an operation. -/
def Obligations.ReadsHaveNoSideEffects : Prop :=
  (∀ s t rest r, s.pending = .readReg r :: rest → step s = .next t → unitOf t = unitOf s) ∧
  (∀ s t rest m a, s.pending = .readMem m a :: rest → step s = .next t → unitOf t = unitOf s) ∧
  (∀ i s t, exec i s = .next t → t.inMem = s.inMem ∧ t.table = s.table) ∧
  (∀ s t h rest, s.pending = h :: rest → (∀ d, h ≠ .writeReg 0 d) → h ≠ .reset → step s = .next t →
    t.status = s.status ∧ t.outLen = s.outLen ∧ t.csumRes = s.csumRes ∧ t.decHdr = s.decHdr ∧
      t.errCsum = s.errCsum ∧ t.ackRsn = s.ackRsn ∧ t.otpRes = s.otpRes)

/-- R131, with the model's reading of "until the next host access" (log entry 10). -/
def Obligations.IdleUnitHoldsItsState : Prop := ∀ s, s.pending = [] → step s = .next s

/-! ### Encoding -/

/-- Decode of encode is the operation, for every operation and every operand value. -/
def Obligations.DecodeOfEncodeIsTheOperation : Prop := ∀ i, decode (encode i) = .ok i

/-- No bit of a legal descriptor is dropped: encode of what it decodes to is the descriptor. -/
def Obligations.EncodeOfDecodeIsTheDescriptor : Prop := ∀ d i, decode d = .ok i → encode i = d

/-- R60, R61: each row of the table selects its operation, with the operand fields; a descriptor that
no row selects is illegal; no descriptor is selected by two rows. -/
def Obligations.DecodeFollowsTheTable : Prop :=
  ∀ d : Word,
    (d &&& 0xFFFFFFFF = 0x00000001 → decode d = .ok .csum) ∧
    (d &&& 0xFFFC80FF = 0x00000002 → decode d =
      .ok (.fenc (d.extractLsb' 8 4) (d.extractLsb' 12 3) (d.getLsbD 16) (d.getLsbD 17))) ∧
    (d &&& 0xFFFFFFFF = 0x00000003 → decode d = .ok .fdec) ∧
    (d &&& 0xFFFF80FF = 0x00000004 → decode d =
      .ok (.ackchk (d.extractLsb' 8 4) (d.extractLsb' 12 3))) ∧
    (d &&& 0xFFFFFFFF = 0x00000005 → decode d = .ok .otpv) ∧
    (d &&& 0xFFFBFFFF = 0x00000006 → decode d = .ok (.imgu (d.getLsbD 18))) ∧
    (d &&& 0xFFFFFFFF = 0x00000007 → decode d = .ok .fdtb) ∧
    ((∀ r ∈ descRows, d &&& r.mask ≠ r.pattern) → ∃ e, decode d = .error e) ∧
    (descRows.filter fun r => d &&& r.mask = r.pattern).length ≤ 1

/-- A few descriptors written out from R73 and R60 decode to the operations they stand for. -/
def Obligations.WrittenDescriptorsDecode : Prop :=
  decode 0x00000001 = .ok .csum ∧ decode 0x00010B02 = .ok (.fenc 0xB 0 true false) ∧
  decode 0x00037F02 = .ok (.fenc 0xF 7 true true) ∧ decode 0x00000003 = .ok .fdec ∧
  decode 0x00001C04 = .ok (.ackchk 0xC 1) ∧ decode 0x00000005 = .ok .otpv ∧
  decode 0x00000006 = .ok (.imgu false) ∧ decode 0x00040006 = .ok (.imgu true) ∧
  decode 0x00000007 = .ok .fdtb

/-- R65: the `cmd` byte round trip; bit 0 is 0 on encode and ignored on decode. -/
def Obligations.CmdByteRoundTrips : Prop :=
  (∀ cat cmd, (cmdByte cat cmd).toNat = ((cat.toNat <<< 4) ||| (cmd.toNat <<< 1)) ∧
    (cmdByte cat cmd).getLsbD 0 = false ∧ cmdByteCategory (cmdByte cat cmd) = cat ∧
    cmdByteCommand (cmdByte cat cmd) = cmd) ∧
  (∀ b, cmdByteCategory b = b.extractLsb' 4 4 ∧ cmdByteCommand b = b.extractLsb' 1 3) ∧
  (∀ b, cmdByteCategory (b ||| 1) = cmdByteCategory b ∧ cmdByteCommand (b ||| 1) = cmdByteCommand b)

/-- R73: the descriptor of each line, and the refusal of a number out of range. -/
def Obligations.AssemblerRefusesAndNeverTruncates : Prop :=
  assemble .csum = .ok 0x00000001 ∧ assemble .fdec = .ok 0x00000003 ∧
  assemble .otpv = .ok 0x00000005 ∧ assemble (.imgu false) = .ok 0x00000006 ∧
  assemble (.imgu true) = .ok 0x00040006 ∧ assemble .fdtb = .ok 0x00000007 ∧
  (∀ cat cmd calcBit pad, assemble (.fenc cat cmd calcBit pad) =
    if cat < 16 ∧ cmd < 8 then .ok (BitVec.ofNat 32 (0x00000002 ||| (cat <<< 8) ||| (cmd <<< 12)
      ||| (calcBit.toNat <<< 16) ||| (pad.toNat <<< 17))) else .error .outOfRange) ∧
  (∀ cat cmd, assemble (.ackchk cat cmd) =
    if cat < 16 ∧ cmd < 8 then .ok (BitVec.ofNat 32 (0x00000004 ||| (cat <<< 8) ||| (cmd <<< 12)))
    else .error .outOfRange) ∧
  (∀ v, assemble (.desc v) =
    if v < 4294967296 then .ok (BitVec.ofNat 32 v) else .error .outOfRange) ∧
  assembleText "fenc 0xB, 0, calc".toList = .ok 0x00010B02 ∧
  assembleText "ackchk 0xC, 1".toList = .ok 0x00001C04

/-- R76: disassembly, then assembly, gives the descriptor back, through the printed text for every
legal one; an illegal one is printed as `.desc`. -/
def Obligations.DisassemblyAssemblesBack : Prop :=
  (∀ d i, decode d = .ok i →
    assemble (disassemble d) = .ok d ∧ assembleText (printLine (disassemble d)) = .ok d) ∧
  (∀ d e, decode d = .error e → disassemble d = .desc d.toNat ∧ assemble (disassemble d) = .ok d)

/-! ### The datapaths -/

/-- R78, R79: the checksum is (0xAA − sum) mod 256, and ACC8 is the sum mod 256. -/
def Obligations.ChecksumIsTheAdditiveComplement : Prop :=
  ∀ bs, ((checksum bs).toNat : Int) = ((0xAA : Int) - byteSum bs) % 256 ∧
    (acc8 0 bs).toNat = byteSum bs % 256

/-- R80: the five properties of the checksum. -/
def Obligations.ChecksumHasTheListedProperties : Prop :=
  (∀ bs, (byteSum bs + (checksum bs).toNat) % 256 = 0xAA) ∧
  checksum [] = 0xAA ∧
  (∀ bs cs, byteSum bs % 256 = byteSum cs % 256 → checksum bs = checksum cs) ∧
  (∀ bs cs : List Byte, bs.Perm cs → checksum bs = checksum cs) ∧
  (∀ bs cs : List Byte, checksum (bs ++ 0x00 :: cs) = checksum (bs ++ cs)) ∧
  (∀ (bs cs : List Byte) (b δ : Byte), checksum (bs ++ (b + δ) :: cs) = checksum (bs ++ b :: cs) - δ) ∧
  (∀ (bs cs : List Byte) (b b' : Byte), b ≠ b' → checksum (bs ++ b :: cs) ≠ checksum (bs ++ b' :: cs)) ∧
  (∀ bs, checksum bs = 0x88 ↔ byteSum bs % 256 = 0x22)

/-- R85: the bytes of an encoded frame. -/
def Obligations.EncodeFrameGivesTheBytes : Prop :=
  ∀ cat cmd pl calcBit, pl.length ≤ 65534 →
    encodeFrame cat cmd pl calcBit =
      frame cat cmd pl (if calcBit then checksum (covered cat cmd pl) else 0x88) ∧
    (encodeFrame cat cmd pl calcBit).length = 4 + pl.length ∧
    half (BitVec.ofNat 8 ((pl.length + 1) &&& 0xFF)) (BitVec.ofNat 8 ((pl.length + 1) >>> 8))
      = pl.length + 1

/-- R87: the padded length is the smallest multiple of BLOCK_SIZE that is at least 4 + n, an aligned
frame gets none, padding bytes are zero, and the frame's own bytes do not depend on PAD. -/
def Obligations.PaddingIsTheLeastMultiple : Prop :=
  (∀ n, Config.params.blockSize ∣ encodedLength n true ∧ 4 + n ≤ encodedLength n true ∧
    (∀ m, Config.params.blockSize ∣ m → 4 + n ≤ m → encodedLength n true ≤ m) ∧
    (Config.params.blockSize ∣ 4 + n → encodedLength n true = 4 + n)) ∧
  (∀ n pad, frameTotal Config.params n pad = encodedLength n pad) ∧
  (∀ (f : List Byte) (total a : Nat), f.length ≤ total →
    (padFrame f total).length = total ∧
    (padFrame f total)[a]? = if a < f.length then f[a]? else if a < total then some 0x00 else none)

/-- R83: every sequence whose byte sum is 0x22 mod 256 has the checksum 0x88, and FENC writes it
unchanged, so the frame is the one sent with CALC = 0; no other message has equal frames. -/
def Obligations.ComputedSentinelIsNotSpecial : Prop :=
  (∀ bs, byteSum bs % 256 = 0x22 → checksum bs = 0x88) ∧
  ∀ cat cmd pl, pl.length ≤ 65534 →
    (encodeFrame cat cmd pl true = encodeFrame cat cmd pl false ↔
      byteSum (covered cat cmd pl) % 256 = 0x22)

/-- R105 and R69: the four samples of a chunk, as numbers and bit by bit. -/
def Obligations.ChunkUnpacksToFourSamples : Prop :=
  ∀ c0 c1 c2 c3 c4 c5 : Byte,
    (unpackChunk c0 c1 c2 c3 c4 c5).map BitVec.toNat =
      (List.range 4).map (sample fun i => ([c0, c1, c2, c3, c4, c5].getD i 0).toNat) ∧
    (unpackChunk c0 c1 c2 c3 c4 c5).map
        (fun s => (s.extractLsb' 8 4, s.extractLsb' 4 4, s.extractLsb' 0 4)) =
      [(c0.extractLsb' 0 4, c1.extractLsb' 4 4, c1.extractLsb' 0 4),
       (c3.extractLsb' 4 4, c3.extractLsb' 0 4, c0.extractLsb' 4 4),
       (c5.extractLsb' 0 4, c2.extractLsb' 4 4, c2.extractLsb' 0 4),
       (c4.extractLsb' 4 4, c4.extractLsb' 0 4, c5.extractLsb' 4 4)]

/-- R106 and R109: how a sample is stored, and the four stored bytes of a chunk with WIDE = 0. -/
def Obligations.SamplesAreStoredByWidth : Prop :=
  (∀ s : Sample, storeSample false s = [BitVec.ofNat 8 (s.toNat &&& 0xFF)] ∧
    storeSample true s = [BitVec.ofNat 8 (s.toNat &&& 0xFF), BitVec.ofNat 8 (s.toNat >>> 8)] ∧
    s.toNat >>> 8 < 16) ∧
  (∀ c0 c1 c2 c3 c4 c5 : Byte, imageBytes false [c0, c1, c2, c3, c4, c5] =
    [c1, ((c3 &&& 0x0F) <<< 4) ||| (c0 >>> 4), c2, ((c4 &&& 0x0F) <<< 4) ||| (c5 >>> 4)])

/-- R102: the four properties of the OTP hash. -/
def Obligations.OtpHashHasTheListedProperties : Prop :=
  (∀ (T : Byte → Byte) (o : List Byte) (b : Byte), otpHash (o.set 25 b) T = otpHash o T) ∧
  (∀ o : List Byte, 26 ≤ o.length →
    (otpHash o id).toNat = 255 - ((o.take 25 ++ o.drop 26).foldl (· ^^^ ·) 0).toNat) ∧
  (∀ n, 26 ≤ n → (otpHash (List.replicate n 0x00) (· + 1)).toNat = 255 - (n - 1) % 256) ∧
  otpHash (List.replicate 26 0x00) (· + 1) = 0xE6 ∧
  (∃ (T : Byte → Byte) (o o' : List Byte), 26 ≤ o.length ∧ o.Perm o' ∧ o[25]? = o'[25]? ∧
    otpHash o T ≠ otpHash o' T)

/-- R111: the FDT base formula, and that reducing the product first gives the same. -/
def Obligations.FdtBaseFollowsTheFormula : Prop :=
  ∀ v : Half, (Sys2Proof.Machine.fdtBase v).toNat = Spec.fdtBase v.toNat ∧
    Spec.fdtBase v.toNat = ((((v.toNat &&& 0xFFFE) * 0x80) % 65536) ||| (v.toNat >>> 1))

/-- The bit-level form of the FDT base (44_fdt_base.md R114, without its counts over all inputs). -/
def Obligations.FdtBaseBitByBit : Prop :=
  (∀ v : Half, (Sys2Proof.Machine.fdtBase v).extractLsb' 0 8 = v.extractLsb' 1 8 ∧
    (Sys2Proof.Machine.fdtBase v).extractLsb' 8 8 =
      v.extractLsb' 1 8 ||| (v.extractLsb' 9 7).setWidth 8) ∧
  (∀ v : Half, Sys2Proof.Machine.fdtBase (v ^^^ 1) = Sys2Proof.Machine.fdtBase v) ∧
  (∃ v : Half, Sys2Proof.Machine.fdtBase v ≠ v.rotateRight 1)

/-! ### The operations -/

/-- R81: CSUM. -/
def Obligations.CsumFollowsItsRule : Prop :=
  encode .csum = 0x00000001 ∧ checksum [] = 0xAA ∧ checksum [0xFF] = 0xAB ∧ checksum [0xAB] = 0xFF ∧
  ∀ s, StartedBy .csum s →
    (Config.params.inCap < inputLength s → exec .csum s = .next (errorState s 0x00000108)) ∧
    (∀ bs, inputLength s ≤ Config.params.inCap → InputIs s bs →
      exec .csum s = .next { s with csumRes := some ((checksum bs).setWidth 32), outLen := 0,
                                    status := 0x00000101 }) ∧
    (∀ a, inputLength s ≤ Config.params.inCap → a < inputLength s → s.inMem.read? a = none →
      ∃ f, exec .csum s = .fault f)

/-- R86: FENC, for every CAT, CMD, CALC and PAD. Of a T that OUT_LEN's 32 bits cannot hold (D33, log
entry 4) it says all but OUT_LEN. -/
def Obligations.FencFollowsItsRule : Prop :=
  (∀ cat cmd calcBit pad, encode (.fenc cat cmd calcBit pad) =
    BitVec.ofNat 32 (0x00000002 ||| (cat.toNat <<< 8) ||| (cmd.toNat <<< 12)
      ||| (calcBit.toNat <<< 16) ||| (pad.toNat <<< 17))) ∧
  ∀ cat cmd calcBit pad s, StartedBy (.fenc cat cmd calcBit pad) s →
    (Config.params.inCap < inputLength s →
      exec (.fenc cat cmd calcBit pad) s = .next (errorState s 0x00000208)) ∧
    (inputLength s ≤ Config.params.inCap → 65534 < inputLength s →
      exec (.fenc cat cmd calcBit pad) s = .next (errorState s 0x00000209)) ∧
    (∀ pl, inputLength s ≤ Config.params.inCap → inputLength s ≤ 65534 → InputIs s pl →
      Config.params.outCap < encodedLength (inputLength s) pad →
      exec (.fenc cat cmd calcBit pad) s = .next (errorState s 0x00000208)) ∧
    (∀ pl, inputLength s ≤ Config.params.inCap → inputLength s ≤ 65534 → InputIs s pl →
      encodedLength (inputLength s) pad ≤ Config.params.outCap →
      ∃ t, exec (.fenc cat cmd calcBit pad) s = .next t ∧
        t = { s with outMem := t.outMem, outLen := t.outLen, status := 0x00000201 } ∧
        (encodedLength (inputLength s) pad < 4294967296 →
          t.outLen = BitVec.ofNat 32 (encodedLength (inputLength s) pad)) ∧
        OutputIs s t
          (frame cat cmd pl (if calcBit then checksum (covered cat cmd pl) else 0x88) ++
            List.replicate (encodedLength (inputLength s) pad - (4 + inputLength s)) 0x00)) ∧
    (∀ a, inputLength s ≤ Config.params.inCap → inputLength s ≤ 65534 → a < inputLength s →
      encodedLength (inputLength s) pad ≤ Config.params.outCap →
      s.inMem.read? a = none → ∃ f, exec (.fenc cat cmd calcBit pad) s = .fault f)

/-- R89: FDEC. Each clause names the IN bytes it needs. -/
def Obligations.FdecFollowsItsRule : Prop :=
  encode .fdec = 0x00000003 ∧
  ∀ s, StartedBy .fdec s →
    (Config.params.inCap < inputLength s → exec .fdec s = .next (errorState s 0x00000308)) ∧
    (inputLength s ≤ Config.params.inCap → inputLength s < 3 →
      exec .fdec s = .next (errorState s 0x00000304)) ∧
    (∀ a, inputLength s ≤ Config.params.inCap → 3 ≤ inputLength s → a < 3 → s.inMem.read? a = none →
      ∃ f, exec .fdec s = .fault f) ∧
    (∀ b0 b1 b2, inputLength s ≤ Config.params.inCap → 3 ≤ inputLength s →
      s.inMem.Holds 0 [b0, b1, b2] →
      (half b1 b2 = 0 → exec .fdec s = .next (errorState s 0x00000304)) ∧
      (half b1 b2 ≠ 0 → inputLength s < 3 + half b1 b2 →
        exec .fdec s = .next (errorState s 0x00000304)) ∧
      (half b1 b2 ≠ 0 → 3 + half b1 b2 ≤ inputLength s →
        (s.inMem.read? (2 + half b1 b2) = none → ∃ f, exec .fdec s = .fault f) ∧
        (s.inMem.read? (2 + half b1 b2) = some 0x88 →
          (Config.params.outCap < half b1 b2 - 1 →
            exec .fdec s = .next (errorState s 0x00000308)) ∧
          (∀ pl, half b1 b2 - 1 ≤ Config.params.outCap → pl.length = half b1 b2 - 1 →
            s.inMem.Holds 3 pl → ∃ t, exec .fdec s = .next t ∧ Delivered s t b0 1 (half b1 b2) pl) ∧
          (∀ a, half b1 b2 - 1 ≤ Config.params.outCap → a < half b1 b2 - 1 →
            s.inMem.read? (3 + a) = none → ∃ f, exec .fdec s = .fault f)) ∧
        (∀ rcv, s.inMem.read? (2 + half b1 b2) = some rcv → rcv ≠ 0x88 →
          (∀ pl, pl.length = half b1 b2 - 1 → s.inMem.Holds 3 pl →
            (checksum ([b0, b1, b2] ++ pl) ≠ rcv →
              exec .fdec s = .next { s with
                errCsum := some (BitVec.ofNat 32
                  ((checksum ([b0, b1, b2] ++ pl)).toNat ||| (rcv.toNat <<< 8))),
                outLen := 0, status := 0x00000302 }) ∧
            (checksum ([b0, b1, b2] ++ pl) = rcv → Config.params.outCap < half b1 b2 - 1 →
              exec .fdec s = .next (errorState s 0x00000308)) ∧
            (checksum ([b0, b1, b2] ++ pl) = rcv → half b1 b2 - 1 ≤ Config.params.outCap →
              ∃ t, exec .fdec s = .next t ∧ Delivered s t b0 0 (half b1 b2) pl)) ∧
          (∀ a, a < half b1 b2 - 1 → s.inMem.read? (3 + a) = none →
            ∃ f, exec .fdec s = .fault f))))

/-- R93 and R94: ACKCHK; IN_LEN and the memories are not read. -/
def Obligations.AckchkFollowsItsRule : Prop :=
  (∀ cat cmd, encode (.ackchk cat cmd) =
    BitVec.ofNat 32 (0x00000004 ||| (cat.toNat <<< 8) ||| (cmd.toNat <<< 12))) ∧
  (∀ cat cmd s, StartedBy (.ackchk cat cmd) s →
    exec (.ackchk cat cmd) s = .next { s with
      ackRsn := some (BitVec.ofNat 32 ((if cat ≠ 0x0B then 1 else 0) ||| ((if cmd ≠ 0 then 1 else 0) <<< 1))),
      outLen := 0, status := if cat = 0x0B ∧ cmd = 0 then 0x00000401 else 0x00000403 }) ∧
  (∀ r ∈ ([(0x0B, 0, 0x401, 0), (0x0C, 0, 0x403, 1), (0x0B, 1, 0x403, 2), (0x0C, 1, 0x403, 3)] :
      List (Category × Command × Word × Word)), ∀ s rest,
    s.pending = .writeReg 0 (encode (.ackchk r.1 r.2.1)) :: rest →
    ∃ t, step s = .next t ∧ t.status = r.2.2.1 ∧ t.ackRsn = some r.2.2.2)

/-- R101 and R103: OTPV, for every table. Only the entries that the walk indexes need to be written. -/
def Obligations.OtpvFollowsItsRule : Prop :=
  encode .otpv = 0x00000005 ∧
  ∀ s, StartedBy .otpv s →
    (Config.params.inCap < inputLength s → exec .otpv s = .next (errorState s 0x00000508)) ∧
    (inputLength s ≤ Config.params.inCap → inputLength s < 26 →
      exec .otpv s = .next (errorState s 0x00000506)) ∧
    (∀ a, inputLength s ≤ Config.params.inCap → 26 ≤ inputLength s → a < inputLength s →
      s.inMem.read? a = none → ∃ f, exec .otpv s = .fault f) ∧
    (∀ o T, inputLength s ≤ Config.params.inCap → 26 ≤ inputLength s → InputIs s o →
      (∀ x b, s.table.read? x.toNat = some b → T x = b) →
      ((∀ i, i < o.length → i ≠ 25 → (s.table.read? (walkIndex T o i)).isSome) →
        exec .otpv s = .next { s with
          otpRes := some (BitVec.ofNat 32 ((if o.getD 25 0 = otpHash o T then 1 else 0)
            ||| ((o.getD 25 0).toNat <<< 8) ||| ((otpHash o T).toNat <<< 16))),
          outLen := 0, status := 0x00000501 }) ∧
      (∀ i, i < o.length → i ≠ 25 → s.table.read? (walkIndex T o i) = none →
        ∃ f, exec .otpv s = .fault f))

/-- R107 and R108: IMGU, with both values of WIDE. Of a T that OUT_LEN's 32 bits cannot hold (D33, log
entry 4) it says all but OUT_LEN. -/
def Obligations.ImguFollowsItsRule : Prop :=
  encode (.imgu false) = 0x00000006 ∧ encode (.imgu true) = 0x00040006 ∧
  ∀ wide s, StartedBy (.imgu wide) s →
    (Config.params.inCap < inputLength s → exec (.imgu wide) s = .next (errorState s 0x00000608)) ∧
    (inputLength s ≤ Config.params.inCap → inputLength s % 6 ≠ 0 →
      exec (.imgu wide) s = .next (errorState s 0x00000605)) ∧
    (inputLength s ≤ Config.params.inCap → inputLength s % 6 = 0 →
      Config.params.outCap < inputLength s / 6 * 4 * (if wide then 2 else 1) →
      exec (.imgu wide) s = .next (errorState s 0x00000608)) ∧
    (∀ bs, inputLength s ≤ Config.params.inCap → inputLength s % 6 = 0 →
      inputLength s / 6 * 4 * (if wide then 2 else 1) ≤ Config.params.outCap → InputIs s bs →
      ∃ t, exec (.imgu wide) s = .next t ∧
        t = { s with outMem := t.outMem, outLen := t.outLen, status := 0x00000601 } ∧
        (inputLength s / 6 * 4 * (if wide then 2 else 1) < 4294967296 →
          t.outLen = BitVec.ofNat 32 (inputLength s / 6 * 4 * (if wide then 2 else 1))) ∧
        (∀ k j, k < inputLength s / 6 → j < 4 →
          t.outMem.read? ((4 * k + j) * (if wide then 2 else 1)) =
            some (BitVec.ofNat 8 (sample (fun i => (bs.getD (6 * k + i) 0).toNat) j &&& 0xFF)) ∧
          (wide = true → t.outMem.read? ((4 * k + j) * 2 + 1) =
            some (BitVec.ofNat 8 (sample (fun i => (bs.getD (6 * k + i) 0).toNat) j >>> 8)))) ∧
        (∀ a, inputLength s / 6 * 4 * (if wide then 2 else 1) ≤ a →
          t.outMem.read? a = s.outMem.read? a)) ∧
    (∀ a, inputLength s ≤ Config.params.inCap → inputLength s % 6 = 0 →
      inputLength s / 6 * 4 * (if wide then 2 else 1) ≤ Config.params.outCap → a < inputLength s →
      s.inMem.read? a = none → ∃ f, exec (.imgu wide) s = .fault f)

/-- R112 and R113: FDTB; with an odd length the last byte of IN is not read. -/
def Obligations.FdtbFollowsItsRule : Prop :=
  encode .fdtb = 0x00000007 ∧
  ∀ s, StartedBy .fdtb s →
    (Config.params.inCap < inputLength s → exec .fdtb s = .next (errorState s 0x00000708)) ∧
    (inputLength s ≤ Config.params.inCap → Config.params.outCap < 2 * (inputLength s / 2) →
      exec .fdtb s = .next (errorState s 0x00000708)) ∧
    (∀ bs, inputLength s ≤ Config.params.inCap → 2 * (inputLength s / 2) ≤ Config.params.outCap →
      bs.length = 2 * (inputLength s / 2) → s.inMem.Holds 0 bs →
      ∃ t, exec .fdtb s = .next t ∧
        t = { s with outMem := t.outMem, outLen := BitVec.ofNat 32 (2 * (inputLength s / 2)),
                     status := 0x00000701 } ∧
        (∀ j, j < inputLength s / 2 →
          t.outMem.read? (2 * j) = some (BitVec.ofNat 8
            (Spec.fdtBase (half (bs.getD (2 * j) 0) (bs.getD (2 * j + 1) 0)) &&& 0xFF)) ∧
          t.outMem.read? (2 * j + 1) = some (BitVec.ofNat 8
            (Spec.fdtBase (half (bs.getD (2 * j) 0) (bs.getD (2 * j + 1) 0)) >>> 8))) ∧
        (∀ a, 2 * (inputLength s / 2) ≤ a → t.outMem.read? a = s.outMem.read? a)) ∧
    (∀ a, inputLength s ≤ Config.params.inCap → 2 * (inputLength s / 2) ≤ Config.params.outCap →
      a < 2 * (inputLength s / 2) → s.inMem.read? a = none → ∃ f, exec .fdtb s = .fault f)

/-! ### Whole-machine rules -/

/-- R117: the common checks, as a DESC write runs them. -/
def Obligations.CommonChecksComeFirst : Prop :=
  ∀ s d rest, s.pending = .writeReg 0 d :: rest →
    (∀ e, decode d = .error e → step s = .next (errorState { s with desc := d, pending := rest }
      (BitVec.ofNat 32 (0x07 ||| ((d.extractLsb' 0 8).toNat <<< 8))))) ∧
    (∀ i, decode d = .ok i → (∀ cat cmd, i ≠ .ackchk cat cmd) →
      Config.params.inCap < inputLength s →
      step s = .next (errorState { s with desc := d, pending := rest }
        (BitVec.ofNat 32 (0x08 ||| ((d.extractLsb' 0 8).toNat <<< 8))))) ∧
    (∀ cat cmd, decode d = .ok (.ackchk cat cmd) →
      ∃ t, step s = .next t ∧ statusCodeField t.status ≠ 0x08)

/-- R32, R21 and R34, R136: what an operation leaves unchanged. -/
def Obligations.OperationsWriteOnlyTheirRegisters : Prop :=
  ∀ i s t, exec i s = .next t →
    (t.desc = s.desc ∧ t.inLen = s.inLen ∧ t.inMem = s.inMem ∧ t.table = s.table ∧
      t.pending = s.pending ∧ t.observed = s.observed) ∧
    (t.csumRes = s.csumRes ∨ i = .csum ∧ statusCodeField t.status = 0x01) ∧
    (t.decHdr = s.decHdr ∨ i = .fdec ∧ statusCodeField t.status = 0x01) ∧
    (t.errCsum = s.errCsum ∨ i = .fdec ∧ statusCodeField t.status = 0x02) ∧
    (t.ackRsn = s.ackRsn ∨ (∃ cat cmd, i = .ackchk cat cmd) ∧
      (statusCodeField t.status = 0x01 ∨ statusCodeField t.status = 0x03)) ∧
    (t.otpRes = s.otpRes ∨ i = .otpv ∧ statusCodeField t.status = 0x01) ∧
    (∀ a, bytesWritten i s t ≤ a → t.outMem.read? a = s.outMem.read? a)

/-- R120: an operation that ends with an error, the illegal one included, writes STATUS, OUT_LEN = 0
and at most the one detail register of its code; OUT and everything else keep their contents. -/
def Obligations.ErrorsArePrecise : Prop :=
  ∀ s t d rest, s.pending = .writeReg 0 d :: rest → step s = .next t →
    statusCodeField t.status ≠ 0x01 →
    t = { s with desc := d, pending := rest,
                 status := BitVec.ofNat 32 (((d.extractLsb' 0 8).toNat <<< 8)
                   ||| (statusCodeField t.status).toNat),
                 outLen := 0, errCsum := t.errCsum, ackRsn := t.ackRsn } ∧
    (t.errCsum ≠ s.errCsum → statusCodeField t.status = 0x02) ∧
    (t.ackRsn ≠ s.ackRsn → statusCodeField t.status = 0x03)

/-- R24 and R116: after reset STATUS is NONE, and no host step but an operation or a reset changes
it; every operation ends with exactly one of the codes 0x01–0x09, raised only by the operations the
table names, LAST_OP is DESC[7:0], and bits 31:16 are 0. -/
def Obligations.EveryOperationEndsWithOneStatus : Prop :=
  State.reset.status = 0 ∧
  (∀ s t h rest, s.pending = h :: rest → (∀ d, h ≠ .writeReg 0 d) → h ≠ .reset → step s = .next t →
    t.status = s.status) ∧
  ∀ s t d rest, s.pending = .writeReg 0 d :: rest → step s = .next t →
    statusLastOp t.status = d.extractLsb' 0 8 ∧ t.status.extractLsb' 16 16 = 0 ∧
    (statusCodeField t.status = 0x01 ∧ (∃ i, decode d = .ok i) ∨
     statusCodeField t.status = 0x02 ∧ decode d = .ok .fdec ∨
     statusCodeField t.status = 0x03 ∧ (∃ cat cmd, decode d = .ok (.ackchk cat cmd)) ∨
     statusCodeField t.status = 0x04 ∧ decode d = .ok .fdec ∨
     statusCodeField t.status = 0x05 ∧ (∃ wide, decode d = .ok (.imgu wide)) ∨
     statusCodeField t.status = 0x06 ∧ decode d = .ok .otpv ∨
     statusCodeField t.status = 0x07 ∧ (∃ e, decode d = .error e) ∨
     statusCodeField t.status = 0x08 ∧ (∃ i, decode d = .ok i ∧ ∀ cat cmd, i ≠ .ackchk cat cmd) ∨
     statusCodeField t.status = 0x09 ∧
       (∃ cat cmd calcBit pad, decode d = .ok (.fenc cat cmd calcBit pad)))

/-- R25: OUT_LEN counts the bytes written, which OUT then holds, the others being as before; it is 0
after the operations that produce no byte sequence, after every error, and after reset. Of a count that
32 bits cannot hold (D33) OUT_LEN is a free value (log entry 4), and the clause says nothing. -/
def Obligations.OutLenCountsTheOutput : Prop :=
  State.reset.outLen = 0 ∧
  ∀ s t d rest, s.pending = .writeReg 0 d :: rest → step s = .next t →
    (∀ i, decode d = .ok i →
      (bytesWritten i { s with desc := d } t < 4294967296 →
        t.outLen.toNat = bytesWritten i { s with desc := d } t) ∧
      (∀ a, a < bytesWritten i { s with desc := d } t →
        a < Config.params.outCap ∧ (t.outMem.read? a).isSome) ∧
      (∀ a, bytesWritten i { s with desc := d } t ≤ a → t.outMem.read? a = s.outMem.read? a)) ∧
    (∀ e, decode d = .error e → t.outMem = s.outMem) ∧
    ((decode d = .ok .csum ∨ decode d = .ok .otpv ∨ ∃ cat cmd, decode d = .ok (.ackchk cat cmd)) →
      t.outLen = 0) ∧
    (statusCodeField t.status ≠ 0x01 → t.outLen = 0)

/-- R50: operations are deterministic in what they read, and idempotent. -/
def Obligations.OperationsAreDeterministicAndIdempotent : Prop :=
  (∀ i s s' t, s.desc = s'.desc → s.inLen = s'.inLen →
    (∀ a, a < inputLength s → s.inMem.read? a = s'.inMem.read? a) →
    (∀ a, a < 256 → s.table.read? a = s'.table.read? a) → exec i s = .next t →
    ∃ t', exec i s' = .next t' ∧ t'.status = t.status ∧ t'.outLen = t.outLen ∧
      (∀ a, a < bytesWritten i s t → t'.outMem.read? a = t.outMem.read? a) ∧
      (t'.csumRes = t.csumRes ∨ t.csumRes = s.csumRes ∧ t'.csumRes = s'.csumRes) ∧
      (t'.decHdr = t.decHdr ∨ t.decHdr = s.decHdr ∧ t'.decHdr = s'.decHdr) ∧
      (t'.errCsum = t.errCsum ∨ t.errCsum = s.errCsum ∧ t'.errCsum = s'.errCsum) ∧
      (t'.ackRsn = t.ackRsn ∨ t.ackRsn = s.ackRsn ∧ t'.ackRsn = s'.ackRsn) ∧
      (t'.otpRes = t.otpRes ∨ t.otpRes = s.otpRes ∧ t'.otpRes = s'.otpRes)) ∧
  (∀ i s t, s.outMem.wf = true → exec i s = .next t → exec i t = .next t)

/-- R90: FENC, then the host's copy of OUT to IN, then FDEC gives the message back, with either value
of CALC and PAD, where OUT_LEN's 32 bits hold the encoded length (D33, log entry 4). -/
def Obligations.FrameRoundTrip : Prop :=
  ∀ cat cmd calcBit pad s t u pl,
    StartedBy (.fenc cat cmd calcBit pad) s → InputIs s pl → pl.length ≤ 65534 →
    pl.length ≤ Config.params.inCap → encodedLength pl.length pad ≤ Config.params.outCap →
    encodedLength pl.length pad < 4294967296 → exec (.fenc cat cmd calcBit pad) s = .next t →
    StartedBy .fdec u → u.inLen = t.outLen → t.outLen.toNat ≤ Config.params.inCap →
    (∀ a, a < t.outLen.toNat → u.inMem.read? a = t.outMem.read? a) →
    ∃ v w, exec .fdec u = .next v ∧ v.status = 0x00000301 ∧ v.decHdr = some w ∧
      decHdrCat w = cat ∧ decHdrCmd w = cmd ∧ decHdrRsv0 w = false ∧
      (decHdrDlen w).toNat = pl.length + 1 ∧
      (decHdrSkipped w = true ↔ calcBit = false ∨ checksum (covered cat cmd pl) = 0x88) ∧
      v.outLen.toNat = pl.length ∧ OutputIs u v pl

/-- R91: a complete frame whose checksum byte is 0x88 decodes, whatever its true checksum is. -/
def Obligations.SentinelBypassesTheCheck : Prop :=
  ∀ s b0 b1 b2 pl, StartedBy .fdec s → inputLength s ≤ Config.params.inCap →
    1 ≤ half b1 b2 → 3 + half b1 b2 ≤ inputLength s → half b1 b2 - 1 ≤ Config.params.outCap →
    pl.length = half b1 b2 - 1 → s.inMem.Holds 0 ([b0, b1, b2] ++ pl ++ [0x88]) →
    ∃ t w, exec .fdec s = .next t ∧ t.status = 0x00000301 ∧ t.decHdr = some w ∧
      decHdrSkipped w = true ∧ OutputIs s t pl

/-- R92: one changed byte of the `cmd` byte or the payload of a checksummed frame is detected, with
the original checksum as RECEIVED and the corrupted bytes' as EXPECTED. -/
def Obligations.CorruptionIsDetected : Prop :=
  ∀ cat cmd pl s k x, StartedBy .fdec s → pl.length ≤ 65534 →
    4 + pl.length ≤ inputLength s → inputLength s ≤ Config.params.inCap →
    checksum (covered cat cmd pl) ≠ 0x88 →
    (k = 0 ∨ 3 ≤ k ∧ k < 3 + pl.length) → (encodeFrame cat cmd pl true)[k]? ≠ some x →
    s.inMem.Holds 0 ((encodeFrame cat cmd pl true).set k x) →
    ∃ t w, exec .fdec s = .next t ∧ t.status = 0x00000302 ∧ t.errCsum = some w ∧
      errCsumReceived w = checksum (covered cat cmd pl) ∧
      errCsumExpected w = checksum ((covered cat cmd pl).set k x) ∧
      errCsumExpected w ≠ errCsumReceived w

/-- The invariant holds at reset. -/
def Obligations.ResetMeetsTheInvariant : Prop := UnitInvariant State.reset

/-- Every step keeps the invariant, from every state that meets it. -/
def Obligations.EveryStepKeepsTheInvariant : Prop := ∀ s t, UnitInvariant s → step s = .next t → UnitInvariant t
end

