-- ==== Sys2Proof/Laws/State.lean ====
section
/-! SUPPORT. The small lemmas of the named updates of State (Machine/Ops.lean): what each field holds
after each update, so that no proof unfolds a record update. -/

namespace Sys2Proof.Machine

/-! `State.setDesc` -/

@[simp] theorem State.setDesc_desc (s : State) (v : Word) :
    (s.setDesc v).desc = v := rfl
@[simp] theorem State.setDesc_inLen (s : State) (v : Word) :
    (s.setDesc v).inLen = s.inLen := rfl
@[simp] theorem State.setDesc_status (s : State) (v : Word) :
    (s.setDesc v).status = s.status := rfl
@[simp] theorem State.setDesc_outLen (s : State) (v : Word) :
    (s.setDesc v).outLen = s.outLen := rfl
@[simp] theorem State.setDesc_csumRes (s : State) (v : Word) :
    (s.setDesc v).csumRes = s.csumRes := rfl
@[simp] theorem State.setDesc_decHdr (s : State) (v : Word) :
    (s.setDesc v).decHdr = s.decHdr := rfl
@[simp] theorem State.setDesc_errCsum (s : State) (v : Word) :
    (s.setDesc v).errCsum = s.errCsum := rfl
@[simp] theorem State.setDesc_ackRsn (s : State) (v : Word) :
    (s.setDesc v).ackRsn = s.ackRsn := rfl
@[simp] theorem State.setDesc_otpRes (s : State) (v : Word) :
    (s.setDesc v).otpRes = s.otpRes := rfl
@[simp] theorem State.setDesc_inMem (s : State) (v : Word) :
    (s.setDesc v).inMem = s.inMem := rfl
@[simp] theorem State.setDesc_outMem (s : State) (v : Word) :
    (s.setDesc v).outMem = s.outMem := rfl
@[simp] theorem State.setDesc_table (s : State) (v : Word) :
    (s.setDesc v).table = s.table := rfl
@[simp] theorem State.setDesc_pending (s : State) (v : Word) :
    (s.setDesc v).pending = s.pending := rfl
@[simp] theorem State.setDesc_observed (s : State) (v : Word) :
    (s.setDesc v).observed = s.observed := rfl

/-! `State.setInLen` -/

@[simp] theorem State.setInLen_desc (s : State) (v : Word) :
    (s.setInLen v).desc = s.desc := rfl
@[simp] theorem State.setInLen_inLen (s : State) (v : Word) :
    (s.setInLen v).inLen = v := rfl
@[simp] theorem State.setInLen_status (s : State) (v : Word) :
    (s.setInLen v).status = s.status := rfl
@[simp] theorem State.setInLen_outLen (s : State) (v : Word) :
    (s.setInLen v).outLen = s.outLen := rfl
@[simp] theorem State.setInLen_csumRes (s : State) (v : Word) :
    (s.setInLen v).csumRes = s.csumRes := rfl
@[simp] theorem State.setInLen_decHdr (s : State) (v : Word) :
    (s.setInLen v).decHdr = s.decHdr := rfl
@[simp] theorem State.setInLen_errCsum (s : State) (v : Word) :
    (s.setInLen v).errCsum = s.errCsum := rfl
@[simp] theorem State.setInLen_ackRsn (s : State) (v : Word) :
    (s.setInLen v).ackRsn = s.ackRsn := rfl
@[simp] theorem State.setInLen_otpRes (s : State) (v : Word) :
    (s.setInLen v).otpRes = s.otpRes := rfl
@[simp] theorem State.setInLen_inMem (s : State) (v : Word) :
    (s.setInLen v).inMem = s.inMem := rfl
@[simp] theorem State.setInLen_outMem (s : State) (v : Word) :
    (s.setInLen v).outMem = s.outMem := rfl
@[simp] theorem State.setInLen_table (s : State) (v : Word) :
    (s.setInLen v).table = s.table := rfl
@[simp] theorem State.setInLen_pending (s : State) (v : Word) :
    (s.setInLen v).pending = s.pending := rfl
@[simp] theorem State.setInLen_observed (s : State) (v : Word) :
    (s.setInLen v).observed = s.observed := rfl

/-! `State.setOutLen` -/

@[simp] theorem State.setOutLen_desc (s : State) (n : Nat) :
    (s.setOutLen n).desc = s.desc := rfl
@[simp] theorem State.setOutLen_inLen (s : State) (n : Nat) :
    (s.setOutLen n).inLen = s.inLen := rfl
@[simp] theorem State.setOutLen_status (s : State) (n : Nat) :
    (s.setOutLen n).status = s.status := rfl
@[simp] theorem State.setOutLen_outLen (s : State) (n : Nat) :
    (s.setOutLen n).outLen = outLenWord s.desc s.inLen n := rfl
@[simp] theorem State.setOutLen_csumRes (s : State) (n : Nat) :
    (s.setOutLen n).csumRes = s.csumRes := rfl
@[simp] theorem State.setOutLen_decHdr (s : State) (n : Nat) :
    (s.setOutLen n).decHdr = s.decHdr := rfl
@[simp] theorem State.setOutLen_errCsum (s : State) (n : Nat) :
    (s.setOutLen n).errCsum = s.errCsum := rfl
@[simp] theorem State.setOutLen_ackRsn (s : State) (n : Nat) :
    (s.setOutLen n).ackRsn = s.ackRsn := rfl
@[simp] theorem State.setOutLen_otpRes (s : State) (n : Nat) :
    (s.setOutLen n).otpRes = s.otpRes := rfl
@[simp] theorem State.setOutLen_inMem (s : State) (n : Nat) :
    (s.setOutLen n).inMem = s.inMem := rfl
@[simp] theorem State.setOutLen_outMem (s : State) (n : Nat) :
    (s.setOutLen n).outMem = s.outMem := rfl
@[simp] theorem State.setOutLen_table (s : State) (n : Nat) :
    (s.setOutLen n).table = s.table := rfl
@[simp] theorem State.setOutLen_pending (s : State) (n : Nat) :
    (s.setOutLen n).pending = s.pending := rfl
@[simp] theorem State.setOutLen_observed (s : State) (n : Nat) :
    (s.setOutLen n).observed = s.observed := rfl

/-! `State.setCsumRes` -/

@[simp] theorem State.setCsumRes_desc (s : State) (v : Word) :
    (s.setCsumRes v).desc = s.desc := rfl
@[simp] theorem State.setCsumRes_inLen (s : State) (v : Word) :
    (s.setCsumRes v).inLen = s.inLen := rfl
@[simp] theorem State.setCsumRes_status (s : State) (v : Word) :
    (s.setCsumRes v).status = s.status := rfl
@[simp] theorem State.setCsumRes_outLen (s : State) (v : Word) :
    (s.setCsumRes v).outLen = s.outLen := rfl
@[simp] theorem State.setCsumRes_csumRes (s : State) (v : Word) :
    (s.setCsumRes v).csumRes = some v := rfl
@[simp] theorem State.setCsumRes_decHdr (s : State) (v : Word) :
    (s.setCsumRes v).decHdr = s.decHdr := rfl
@[simp] theorem State.setCsumRes_errCsum (s : State) (v : Word) :
    (s.setCsumRes v).errCsum = s.errCsum := rfl
@[simp] theorem State.setCsumRes_ackRsn (s : State) (v : Word) :
    (s.setCsumRes v).ackRsn = s.ackRsn := rfl
@[simp] theorem State.setCsumRes_otpRes (s : State) (v : Word) :
    (s.setCsumRes v).otpRes = s.otpRes := rfl
@[simp] theorem State.setCsumRes_inMem (s : State) (v : Word) :
    (s.setCsumRes v).inMem = s.inMem := rfl
@[simp] theorem State.setCsumRes_outMem (s : State) (v : Word) :
    (s.setCsumRes v).outMem = s.outMem := rfl
@[simp] theorem State.setCsumRes_table (s : State) (v : Word) :
    (s.setCsumRes v).table = s.table := rfl
@[simp] theorem State.setCsumRes_pending (s : State) (v : Word) :
    (s.setCsumRes v).pending = s.pending := rfl
@[simp] theorem State.setCsumRes_observed (s : State) (v : Word) :
    (s.setCsumRes v).observed = s.observed := rfl

/-! `State.setDecHdr` -/

@[simp] theorem State.setDecHdr_desc (s : State) (v : Word) :
    (s.setDecHdr v).desc = s.desc := rfl
@[simp] theorem State.setDecHdr_inLen (s : State) (v : Word) :
    (s.setDecHdr v).inLen = s.inLen := rfl
@[simp] theorem State.setDecHdr_status (s : State) (v : Word) :
    (s.setDecHdr v).status = s.status := rfl
@[simp] theorem State.setDecHdr_outLen (s : State) (v : Word) :
    (s.setDecHdr v).outLen = s.outLen := rfl
@[simp] theorem State.setDecHdr_csumRes (s : State) (v : Word) :
    (s.setDecHdr v).csumRes = s.csumRes := rfl
@[simp] theorem State.setDecHdr_decHdr (s : State) (v : Word) :
    (s.setDecHdr v).decHdr = some v := rfl
@[simp] theorem State.setDecHdr_errCsum (s : State) (v : Word) :
    (s.setDecHdr v).errCsum = s.errCsum := rfl
@[simp] theorem State.setDecHdr_ackRsn (s : State) (v : Word) :
    (s.setDecHdr v).ackRsn = s.ackRsn := rfl
@[simp] theorem State.setDecHdr_otpRes (s : State) (v : Word) :
    (s.setDecHdr v).otpRes = s.otpRes := rfl
@[simp] theorem State.setDecHdr_inMem (s : State) (v : Word) :
    (s.setDecHdr v).inMem = s.inMem := rfl
@[simp] theorem State.setDecHdr_outMem (s : State) (v : Word) :
    (s.setDecHdr v).outMem = s.outMem := rfl
@[simp] theorem State.setDecHdr_table (s : State) (v : Word) :
    (s.setDecHdr v).table = s.table := rfl
@[simp] theorem State.setDecHdr_pending (s : State) (v : Word) :
    (s.setDecHdr v).pending = s.pending := rfl
@[simp] theorem State.setDecHdr_observed (s : State) (v : Word) :
    (s.setDecHdr v).observed = s.observed := rfl

/-! `State.setErrCsum` -/

@[simp] theorem State.setErrCsum_desc (s : State) (v : Word) :
    (s.setErrCsum v).desc = s.desc := rfl
@[simp] theorem State.setErrCsum_inLen (s : State) (v : Word) :
    (s.setErrCsum v).inLen = s.inLen := rfl
@[simp] theorem State.setErrCsum_status (s : State) (v : Word) :
    (s.setErrCsum v).status = s.status := rfl
@[simp] theorem State.setErrCsum_outLen (s : State) (v : Word) :
    (s.setErrCsum v).outLen = s.outLen := rfl
@[simp] theorem State.setErrCsum_csumRes (s : State) (v : Word) :
    (s.setErrCsum v).csumRes = s.csumRes := rfl
@[simp] theorem State.setErrCsum_decHdr (s : State) (v : Word) :
    (s.setErrCsum v).decHdr = s.decHdr := rfl
@[simp] theorem State.setErrCsum_errCsum (s : State) (v : Word) :
    (s.setErrCsum v).errCsum = some v := rfl
@[simp] theorem State.setErrCsum_ackRsn (s : State) (v : Word) :
    (s.setErrCsum v).ackRsn = s.ackRsn := rfl
@[simp] theorem State.setErrCsum_otpRes (s : State) (v : Word) :
    (s.setErrCsum v).otpRes = s.otpRes := rfl
@[simp] theorem State.setErrCsum_inMem (s : State) (v : Word) :
    (s.setErrCsum v).inMem = s.inMem := rfl
@[simp] theorem State.setErrCsum_outMem (s : State) (v : Word) :
    (s.setErrCsum v).outMem = s.outMem := rfl
@[simp] theorem State.setErrCsum_table (s : State) (v : Word) :
    (s.setErrCsum v).table = s.table := rfl
@[simp] theorem State.setErrCsum_pending (s : State) (v : Word) :
    (s.setErrCsum v).pending = s.pending := rfl
@[simp] theorem State.setErrCsum_observed (s : State) (v : Word) :
    (s.setErrCsum v).observed = s.observed := rfl

/-! `State.setAckRsn` -/

@[simp] theorem State.setAckRsn_desc (s : State) (v : Word) :
    (s.setAckRsn v).desc = s.desc := rfl
@[simp] theorem State.setAckRsn_inLen (s : State) (v : Word) :
    (s.setAckRsn v).inLen = s.inLen := rfl
@[simp] theorem State.setAckRsn_status (s : State) (v : Word) :
    (s.setAckRsn v).status = s.status := rfl
@[simp] theorem State.setAckRsn_outLen (s : State) (v : Word) :
    (s.setAckRsn v).outLen = s.outLen := rfl
@[simp] theorem State.setAckRsn_csumRes (s : State) (v : Word) :
    (s.setAckRsn v).csumRes = s.csumRes := rfl
@[simp] theorem State.setAckRsn_decHdr (s : State) (v : Word) :
    (s.setAckRsn v).decHdr = s.decHdr := rfl
@[simp] theorem State.setAckRsn_errCsum (s : State) (v : Word) :
    (s.setAckRsn v).errCsum = s.errCsum := rfl
@[simp] theorem State.setAckRsn_ackRsn (s : State) (v : Word) :
    (s.setAckRsn v).ackRsn = some v := rfl
@[simp] theorem State.setAckRsn_otpRes (s : State) (v : Word) :
    (s.setAckRsn v).otpRes = s.otpRes := rfl
@[simp] theorem State.setAckRsn_inMem (s : State) (v : Word) :
    (s.setAckRsn v).inMem = s.inMem := rfl
@[simp] theorem State.setAckRsn_outMem (s : State) (v : Word) :
    (s.setAckRsn v).outMem = s.outMem := rfl
@[simp] theorem State.setAckRsn_table (s : State) (v : Word) :
    (s.setAckRsn v).table = s.table := rfl
@[simp] theorem State.setAckRsn_pending (s : State) (v : Word) :
    (s.setAckRsn v).pending = s.pending := rfl
@[simp] theorem State.setAckRsn_observed (s : State) (v : Word) :
    (s.setAckRsn v).observed = s.observed := rfl

/-! `State.setOtpRes` -/

@[simp] theorem State.setOtpRes_desc (s : State) (v : Word) :
    (s.setOtpRes v).desc = s.desc := rfl
@[simp] theorem State.setOtpRes_inLen (s : State) (v : Word) :
    (s.setOtpRes v).inLen = s.inLen := rfl
@[simp] theorem State.setOtpRes_status (s : State) (v : Word) :
    (s.setOtpRes v).status = s.status := rfl
@[simp] theorem State.setOtpRes_outLen (s : State) (v : Word) :
    (s.setOtpRes v).outLen = s.outLen := rfl
@[simp] theorem State.setOtpRes_csumRes (s : State) (v : Word) :
    (s.setOtpRes v).csumRes = s.csumRes := rfl
@[simp] theorem State.setOtpRes_decHdr (s : State) (v : Word) :
    (s.setOtpRes v).decHdr = s.decHdr := rfl
@[simp] theorem State.setOtpRes_errCsum (s : State) (v : Word) :
    (s.setOtpRes v).errCsum = s.errCsum := rfl
@[simp] theorem State.setOtpRes_ackRsn (s : State) (v : Word) :
    (s.setOtpRes v).ackRsn = s.ackRsn := rfl
@[simp] theorem State.setOtpRes_otpRes (s : State) (v : Word) :
    (s.setOtpRes v).otpRes = some v := rfl
@[simp] theorem State.setOtpRes_inMem (s : State) (v : Word) :
    (s.setOtpRes v).inMem = s.inMem := rfl
@[simp] theorem State.setOtpRes_outMem (s : State) (v : Word) :
    (s.setOtpRes v).outMem = s.outMem := rfl
@[simp] theorem State.setOtpRes_table (s : State) (v : Word) :
    (s.setOtpRes v).table = s.table := rfl
@[simp] theorem State.setOtpRes_pending (s : State) (v : Word) :
    (s.setOtpRes v).pending = s.pending := rfl
@[simp] theorem State.setOtpRes_observed (s : State) (v : Word) :
    (s.setOtpRes v).observed = s.observed := rfl

/-! `State.putOut` -/

@[simp] theorem State.putOut_desc (s : State) (bs : List Byte) :
    (s.putOut bs).desc = s.desc := rfl
@[simp] theorem State.putOut_inLen (s : State) (bs : List Byte) :
    (s.putOut bs).inLen = s.inLen := rfl
@[simp] theorem State.putOut_status (s : State) (bs : List Byte) :
    (s.putOut bs).status = s.status := rfl
@[simp] theorem State.putOut_outLen (s : State) (bs : List Byte) :
    (s.putOut bs).outLen = s.outLen := rfl
@[simp] theorem State.putOut_csumRes (s : State) (bs : List Byte) :
    (s.putOut bs).csumRes = s.csumRes := rfl
@[simp] theorem State.putOut_decHdr (s : State) (bs : List Byte) :
    (s.putOut bs).decHdr = s.decHdr := rfl
@[simp] theorem State.putOut_errCsum (s : State) (bs : List Byte) :
    (s.putOut bs).errCsum = s.errCsum := rfl
@[simp] theorem State.putOut_ackRsn (s : State) (bs : List Byte) :
    (s.putOut bs).ackRsn = s.ackRsn := rfl
@[simp] theorem State.putOut_otpRes (s : State) (bs : List Byte) :
    (s.putOut bs).otpRes = s.otpRes := rfl
@[simp] theorem State.putOut_inMem (s : State) (bs : List Byte) :
    (s.putOut bs).inMem = s.inMem := rfl
@[simp] theorem State.putOut_outMem (s : State) (bs : List Byte) :
    (s.putOut bs).outMem = s.outMem.writeBytes 0 bs := rfl
@[simp] theorem State.putOut_table (s : State) (bs : List Byte) :
    (s.putOut bs).table = s.table := rfl
@[simp] theorem State.putOut_pending (s : State) (bs : List Byte) :
    (s.putOut bs).pending = s.pending := rfl
@[simp] theorem State.putOut_observed (s : State) (bs : List Byte) :
    (s.putOut bs).observed = s.observed := rfl

/-! `State.setStatus` -/

@[simp] theorem State.setStatus_desc (s : State) (c : StatusCode) :
    (s.setStatus c).desc = s.desc := rfl
@[simp] theorem State.setStatus_inLen (s : State) (c : StatusCode) :
    (s.setStatus c).inLen = s.inLen := rfl
@[simp] theorem State.setStatus_status (s : State) (c : StatusCode) :
    (s.setStatus c).status = statusWord (s.desc.extractLsb' 0 8) c := rfl
@[simp] theorem State.setStatus_outLen (s : State) (c : StatusCode) :
    (s.setStatus c).outLen = s.outLen := rfl
@[simp] theorem State.setStatus_csumRes (s : State) (c : StatusCode) :
    (s.setStatus c).csumRes = s.csumRes := rfl
@[simp] theorem State.setStatus_decHdr (s : State) (c : StatusCode) :
    (s.setStatus c).decHdr = s.decHdr := rfl
@[simp] theorem State.setStatus_errCsum (s : State) (c : StatusCode) :
    (s.setStatus c).errCsum = s.errCsum := rfl
@[simp] theorem State.setStatus_ackRsn (s : State) (c : StatusCode) :
    (s.setStatus c).ackRsn = s.ackRsn := rfl
@[simp] theorem State.setStatus_otpRes (s : State) (c : StatusCode) :
    (s.setStatus c).otpRes = s.otpRes := rfl
@[simp] theorem State.setStatus_inMem (s : State) (c : StatusCode) :
    (s.setStatus c).inMem = s.inMem := rfl
@[simp] theorem State.setStatus_outMem (s : State) (c : StatusCode) :
    (s.setStatus c).outMem = s.outMem := rfl
@[simp] theorem State.setStatus_table (s : State) (c : StatusCode) :
    (s.setStatus c).table = s.table := rfl
@[simp] theorem State.setStatus_pending (s : State) (c : StatusCode) :
    (s.setStatus c).pending = s.pending := rfl
@[simp] theorem State.setStatus_observed (s : State) (c : StatusCode) :
    (s.setStatus c).observed = s.observed := rfl

/-! `State.setPending` -/

@[simp] theorem State.setPending_desc (s : State) (steps : List HostStep) :
    (s.setPending steps).desc = s.desc := rfl
@[simp] theorem State.setPending_inLen (s : State) (steps : List HostStep) :
    (s.setPending steps).inLen = s.inLen := rfl
@[simp] theorem State.setPending_status (s : State) (steps : List HostStep) :
    (s.setPending steps).status = s.status := rfl
@[simp] theorem State.setPending_outLen (s : State) (steps : List HostStep) :
    (s.setPending steps).outLen = s.outLen := rfl
@[simp] theorem State.setPending_csumRes (s : State) (steps : List HostStep) :
    (s.setPending steps).csumRes = s.csumRes := rfl
@[simp] theorem State.setPending_decHdr (s : State) (steps : List HostStep) :
    (s.setPending steps).decHdr = s.decHdr := rfl
@[simp] theorem State.setPending_errCsum (s : State) (steps : List HostStep) :
    (s.setPending steps).errCsum = s.errCsum := rfl
@[simp] theorem State.setPending_ackRsn (s : State) (steps : List HostStep) :
    (s.setPending steps).ackRsn = s.ackRsn := rfl
@[simp] theorem State.setPending_otpRes (s : State) (steps : List HostStep) :
    (s.setPending steps).otpRes = s.otpRes := rfl
@[simp] theorem State.setPending_inMem (s : State) (steps : List HostStep) :
    (s.setPending steps).inMem = s.inMem := rfl
@[simp] theorem State.setPending_outMem (s : State) (steps : List HostStep) :
    (s.setPending steps).outMem = s.outMem := rfl
@[simp] theorem State.setPending_table (s : State) (steps : List HostStep) :
    (s.setPending steps).table = s.table := rfl
@[simp] theorem State.setPending_pending (s : State) (steps : List HostStep) :
    (s.setPending steps).pending = steps := rfl
@[simp] theorem State.setPending_observed (s : State) (steps : List HostStep) :
    (s.setPending steps).observed = s.observed := rfl

/-! `State.observe` -/

@[simp] theorem State.observe_desc (s : State) (v : ReadValue) :
    (s.observe v).desc = s.desc := rfl
@[simp] theorem State.observe_inLen (s : State) (v : ReadValue) :
    (s.observe v).inLen = s.inLen := rfl
@[simp] theorem State.observe_status (s : State) (v : ReadValue) :
    (s.observe v).status = s.status := rfl
@[simp] theorem State.observe_outLen (s : State) (v : ReadValue) :
    (s.observe v).outLen = s.outLen := rfl
@[simp] theorem State.observe_csumRes (s : State) (v : ReadValue) :
    (s.observe v).csumRes = s.csumRes := rfl
@[simp] theorem State.observe_decHdr (s : State) (v : ReadValue) :
    (s.observe v).decHdr = s.decHdr := rfl
@[simp] theorem State.observe_errCsum (s : State) (v : ReadValue) :
    (s.observe v).errCsum = s.errCsum := rfl
@[simp] theorem State.observe_ackRsn (s : State) (v : ReadValue) :
    (s.observe v).ackRsn = s.ackRsn := rfl
@[simp] theorem State.observe_otpRes (s : State) (v : ReadValue) :
    (s.observe v).otpRes = s.otpRes := rfl
@[simp] theorem State.observe_inMem (s : State) (v : ReadValue) :
    (s.observe v).inMem = s.inMem := rfl
@[simp] theorem State.observe_outMem (s : State) (v : ReadValue) :
    (s.observe v).outMem = s.outMem := rfl
@[simp] theorem State.observe_table (s : State) (v : ReadValue) :
    (s.observe v).table = s.table := rfl
@[simp] theorem State.observe_pending (s : State) (v : ReadValue) :
    (s.observe v).pending = s.pending := rfl
@[simp] theorem State.observe_observed (s : State) (v : ReadValue) :
    (s.observe v).observed = s.observed ++ [v] := rfl

/-! `outLenWord` -/

@[simp] theorem outLenWord_zero (desc inLen : Word) : outLenWord desc inLen 0 = 0 := rfl

theorem outLenWord_of_lt (desc inLen : Word) {n : Nat} (h : n < 4294967296) :
    outLenWord desc inLen n = BitVec.ofNat 32 n := if_pos h

/-- The word is the count where 32 bits hold it. -/
theorem outLenWord_toNat (desc inLen : Word) {n : Nat} (h : n < 4294967296) :
    (outLenWord desc inLen n).toNat = n := by
  rw [outLenWord_of_lt desc inLen h, BitVec.toNat_ofNat]; exact Nat.mod_eq_of_lt h

/-- Whatever the free value is, OUT_LEN never counts more bytes than were written. -/
theorem outLenWord_le (desc inLen : Word) (n : Nat) : (outLenWord desc inLen n).toNat ≤ n := by
  rcases Nat.lt_or_ge n 4294967296 with h | h
  · exact Nat.le_of_eq (outLenWord_toNat desc inLen h)
  · exact Nat.le_of_lt (Nat.lt_of_lt_of_le (outLenWord desc inLen n).isLt h)

/-! `State.setMem` -/

@[simp] theorem State.setMem_desc (s : State) (m : MemId) (x : Memory) :
    (s.setMem m x).desc = s.desc := by cases m <;> rfl
@[simp] theorem State.setMem_inLen (s : State) (m : MemId) (x : Memory) :
    (s.setMem m x).inLen = s.inLen := by cases m <;> rfl
@[simp] theorem State.setMem_status (s : State) (m : MemId) (x : Memory) :
    (s.setMem m x).status = s.status := by cases m <;> rfl
@[simp] theorem State.setMem_outLen (s : State) (m : MemId) (x : Memory) :
    (s.setMem m x).outLen = s.outLen := by cases m <;> rfl
@[simp] theorem State.setMem_csumRes (s : State) (m : MemId) (x : Memory) :
    (s.setMem m x).csumRes = s.csumRes := by cases m <;> rfl
@[simp] theorem State.setMem_decHdr (s : State) (m : MemId) (x : Memory) :
    (s.setMem m x).decHdr = s.decHdr := by cases m <;> rfl
@[simp] theorem State.setMem_errCsum (s : State) (m : MemId) (x : Memory) :
    (s.setMem m x).errCsum = s.errCsum := by cases m <;> rfl
@[simp] theorem State.setMem_ackRsn (s : State) (m : MemId) (x : Memory) :
    (s.setMem m x).ackRsn = s.ackRsn := by cases m <;> rfl
@[simp] theorem State.setMem_otpRes (s : State) (m : MemId) (x : Memory) :
    (s.setMem m x).otpRes = s.otpRes := by cases m <;> rfl
@[simp] theorem State.setMem_pending (s : State) (m : MemId) (x : Memory) :
    (s.setMem m x).pending = s.pending := by cases m <;> rfl
@[simp] theorem State.setMem_observed (s : State) (m : MemId) (x : Memory) :
    (s.setMem m x).observed = s.observed := by cases m <;> rfl

@[simp] theorem State.mem_setMem (s : State) (m k : MemId) (x : Memory) :
    (s.setMem m x).mem k = if k = m then x else s.mem k := by
  cases m <;> cases k <;> rfl

@[simp] theorem State.mem_inp (s : State) : s.mem .inp = s.inMem := rfl
@[simp] theorem State.mem_out (s : State) : s.mem .out = s.outMem := rfl
@[simp] theorem State.mem_table (s : State) : s.mem .table = s.table := rfl

/-- Two states that agree on every field are equal. -/
theorem State.ext_fields {s t : State}
    (h : s.desc = t.desc ∧ s.inLen = t.inLen ∧ s.status = t.status ∧ s.outLen = t.outLen ∧
      s.csumRes = t.csumRes ∧ s.decHdr = t.decHdr ∧ s.errCsum = t.errCsum ∧ s.ackRsn = t.ackRsn ∧
      s.otpRes = t.otpRes ∧ s.inMem = t.inMem ∧ s.outMem = t.outMem ∧ s.table = t.table ∧
      s.pending = t.pending ∧ s.observed = t.observed) : s = t := by
  cases s; cases t; simpa using h

end Sys2Proof.Machine
end

