-- ==== Sys2Proof/Laws/Flags.lean ====
section
/-! SUPPORT. The words of the status and result registers as numbers, their fields read back, and
their reserved bits (10_state.md R24–R30); and the values of the constants that count (R9). -/

namespace Sys2Proof.Machine

theorem hdrSize_eq : hdrSize = 3 := rfl
theorem otpHashOffset_eq : otpHashOffset = 25 := rfl
theorem chunkIn_eq : chunkIn = 6 := rfl
theorem chunkOut_eq : chunkOut = 4 := rfl
theorem tableSize_eq : tableSize = 256 := rfl
theorem maxPayload_eq : maxPayload = 65534 := rfl
theorem csumSentinel_eq : csumSentinel = 0x88 := rfl

/-- Concatenation as a sum. -/
theorem toNat_append_add {w v : Nat} (x : BitVec w) (y : BitVec v) :
    (x ++ y).toNat = y.toNat + x.toNat * 2 ^ v := by
  rw [BitVec.toNat_append, ← Nat.shiftLeft_add_eq_or_of_lt y.isLt, Nat.shiftLeft_eq, Nat.add_comm]

/-- An OR of a small number and a shifted one is a sum. -/
theorem or_shiftLeft_eq_add (a b k : Nat) (h : a < 2 ^ k) : a ||| (b <<< k) = a + b * 2 ^ k := by
  rw [Nat.or_comm, ← Nat.shiftLeft_add_eq_or_of_lt h, Nat.shiftLeft_eq, Nat.add_comm]

theorem ofBool_toNat (b : Bool) : (BitVec.ofBool b).toNat = b.toNat := by cases b <;> rfl

theorem toNat_bool_lt (b : Bool) : b.toNat < 2 := by cases b <;> decide

theorem statusWord_toNat (op : Byte) (c : StatusCode) :
    (statusWord op c).toNat = (statusByte c).toNat + op.toNat * 256 := by
  simp only [statusWord, toNat_append_add, BitVec.toNat_ofNat]; omega

theorem decHdrWord_toNat (b : Byte) (skipped : Bool) (declared : Half) :
    (decHdrWord b skipped declared).toNat =
      b.toNat / 16 + b.toNat / 2 % 8 * 16 + b.toNat % 2 * 128 + skipped.toNat * 256 +
        declared.toNat * 65536 := by
  have := b.isLt
  have := toNat_bool_lt skipped
  have := declared.isLt
  simp only [decHdrWord, toNat_append_add, BitVec.toNat_ofNat, BitVec.extractLsb'_toNat, ofBool_toNat,
    Nat.shiftRight_eq_div_pow]
  omega

theorem errCsumWord_toNat (expected received : Byte) :
    (errCsumWord expected received).toNat = expected.toNat + received.toNat * 256 := by
  simp only [errCsumWord, toNat_append_add, BitVec.toNat_ofNat]; omega

theorem ackRsnWord_toNat (catBad cmdBad : Bool) :
    (ackRsnWord catBad cmdBad).toNat = catBad.toNat + cmdBad.toNat * 2 := by
  cases catBad <;> cases cmdBad <;> rfl

theorem otpResWord_toNat (expected computed : Byte) :
    (otpResWord expected computed).toNat =
      (expected == computed).toNat + expected.toNat * 256 + computed.toNat * 65536 := by
  have := expected.isLt
  have := computed.isLt
  have := toNat_bool_lt (expected == computed)
  simp only [otpResWord, toNat_append_add, BitVec.toNat_ofNat, ofBool_toNat]
  omega

/-! ### Fields -/

/-- A field of a word that is a sum of its fields. -/
theorem field_eq {len : Nat} (w : Word) {x : BitVec len} (lo low rest : Nat)
    (hw : w.toNat = low + 2 ^ lo * (x.toNat + 2 ^ len * rest)) (h : low < 2 ^ lo) :
    w.extractLsb' lo len = x := by
  apply BitVec.eq_of_toNat_eq
  rw [BitVec.extractLsb'_toNat, hw, Nat.shiftRight_eq_div_pow,
    Nat.add_mul_div_left _ _ (by positivity), Nat.div_eq_of_lt h, Nat.zero_add,
    Nat.add_mul_mod_self_left, Nat.mod_eq_of_lt x.isLt]

/-- A one-bit field of a word that is a sum of its fields. -/
theorem bit_eq (w : Word) {x : Bool} (lo low rest : Nat)
    (hw : w.toNat = low + 2 ^ lo * (x.toNat + 2 * rest)) (h : low < 2 ^ lo) : w.getLsbD lo = x := by
  rw [BitVec.getLsbD, Nat.testBit_eq_decide_div_mod_eq, hw, Nat.add_mul_div_left _ _ (by positivity),
    Nat.div_eq_of_lt h, Nat.zero_add, Nat.add_mul_mod_self_left]
  cases x <;> rfl

@[simp] theorem statusCodeField_statusWord (op : Byte) (c : StatusCode) :
    statusCodeField (statusWord op c) = statusByte c := by
  apply BitVec.eq_of_toNat_eq
  have := (statusByte c).isLt
  simp only [statusCodeField, BitVec.extractLsb'_toNat, statusWord_toNat, Nat.shiftRight_zero]
  omega

@[simp] theorem statusLastOp_statusWord (op : Byte) (c : StatusCode) :
    statusLastOp (statusWord op c) = op := by
  apply BitVec.eq_of_toNat_eq
  have := op.isLt
  have := (statusByte c).isLt
  simp only [statusLastOp, BitVec.extractLsb'_toNat, statusWord_toNat, Nat.shiftRight_eq_div_pow]
  omega

@[simp] theorem statusWord_reserved (op : Byte) (c : StatusCode) :
    (statusWord op c).extractLsb' 16 16 = 0 := by
  apply BitVec.eq_of_toNat_eq
  have := op.isLt
  have := (statusByte c).isLt
  simp only [BitVec.extractLsb'_toNat, statusWord_toNat, Nat.shiftRight_eq_div_pow,
    BitVec.ofNat_eq_ofNat, BitVec.toNat_ofNat]
  omega

@[simp] theorem csumResValue_csumResWord (b : Byte) : csumResValue (csumResWord b) = b := by
  apply BitVec.eq_of_toNat_eq
  have := b.isLt
  simp only [csumResValue, csumResWord, BitVec.extractLsb'_toNat, BitVec.toNat_setWidth,
    Nat.shiftRight_zero]
  omega

@[simp] theorem csumResWord_reserved (b : Byte) : (csumResWord b).extractLsb' 8 24 = 0 := by
  apply BitVec.eq_of_toNat_eq
  have := b.isLt
  simp only [csumResWord, BitVec.extractLsb'_toNat, BitVec.toNat_setWidth,
    Nat.shiftRight_eq_div_pow, BitVec.ofNat_eq_ofNat, BitVec.toNat_ofNat]
  omega

section DecHdr

variable (b : Byte) (skipped : Bool) (declared : Half)

/-- The fields of the received `cmd` byte, and DEC_HDR as their sum. -/
theorem decHdrWord_parts : ∃ h m z, h < 16 ∧ m < 8 ∧ z < 2 ∧ b.toNat = 16 * h + 2 * m + z ∧
    (decHdrWord b skipped declared).toNat =
      h + 16 * m + 128 * z + 256 * skipped.toNat + 65536 * declared.toNat := by
  have := b.isLt
  refine ⟨b.toNat / 16, b.toNat / 2 % 8, b.toNat % 2, by omega, by omega, by omega, by omega, ?_⟩
  rw [decHdrWord_toNat]; omega

@[simp] theorem decHdrCat_decHdrWord : decHdrCat (decHdrWord b skipped declared) = cmdByteCategory b := by
  obtain ⟨h, m, z, hh, hm, hz, hb, hw⟩ := decHdrWord_parts b skipped declared
  have hc : (cmdByteCategory b).toNat = h := by
    simp only [cmdByteCategory, hb, BitVec.toNat_setWidth, BitVec.toNat_ushiftRight,
      Nat.shiftRight_eq_div_pow, Nat.reducePow]
    rw [show (16 * h + 2 * m + z) / 16 = h by omega]
    omega
  refine field_eq _ 0 0 (m + 8 * (z + 2 * (skipped.toNat + 256 * declared.toNat))) ?_ (by decide)
  rw [hw, hc]; omega

@[simp] theorem decHdrCmd_decHdrWord : decHdrCmd (decHdrWord b skipped declared) = cmdByteCommand b := by
  obtain ⟨h, m, z, hh, hm, hz, hb, hw⟩ := decHdrWord_parts b skipped declared
  have h15 : BitVec.toNat (b &&& 15#8) = b.toNat % 16 := Nat.and_two_pow_sub_one_eq_mod _ 4
  have hc : (cmdByteCommand b).toNat = m := by
    simp only [cmdByteCommand, BitVec.toNat_setWidth, BitVec.toNat_ushiftRight,
      Nat.shiftRight_eq_div_pow, BitVec.ofNat_eq_ofNat, h15, hb, Nat.reducePow]
    omega
  refine field_eq _ 4 h (z + 2 * (skipped.toNat + 256 * declared.toNat)) ?_ (by omega)
  rw [hw, hc]; omega

@[simp] theorem decHdrRsv0_decHdrWord : decHdrRsv0 (decHdrWord b skipped declared) = b.getLsbD 0 := by
  obtain ⟨h, m, z, hh, hm, hz, hb, hw⟩ := decHdrWord_parts b skipped declared
  have hz0 : (b.getLsbD 0).toNat = z := by
    rw [BitVec.getLsbD, Nat.testBit_zero, hb]
    rcases (by omega : z = 0 ∨ z = 1) with rfl | rfl <;> simp <;> omega
  refine bit_eq _ 7 (h + 16 * m) (skipped.toNat + 256 * declared.toNat) ?_ (by omega)
  rw [hw, hz0]; omega

@[simp] theorem decHdrSkipped_decHdrWord : decHdrSkipped (decHdrWord b skipped declared) = skipped := by
  obtain ⟨h, m, z, hh, hm, hz, -, hw⟩ := decHdrWord_parts b skipped declared
  refine bit_eq _ 8 (h + 16 * m + 128 * z) (128 * declared.toNat) ?_ (by omega)
  rw [hw]; omega

@[simp] theorem decHdrDlen_decHdrWord : decHdrDlen (decHdrWord b skipped declared) = declared := by
  obtain ⟨h, m, z, hh, hm, hz, -, hw⟩ := decHdrWord_parts b skipped declared
  have := toNat_bool_lt skipped
  refine field_eq _ 16 (h + 16 * m + 128 * z + 256 * skipped.toNat) 0 ?_ (by omega)
  rw [hw]; omega

@[simp] theorem decHdrWord_reserved : (decHdrWord b skipped declared).extractLsb' 9 7 = 0 := by
  obtain ⟨h, m, z, hh, hm, hz, -, hw⟩ := decHdrWord_parts b skipped declared
  have := toNat_bool_lt skipped
  refine field_eq _ 9 (h + 16 * m + 128 * z + 256 * skipped.toNat) declared.toNat ?_ (by omega)
  rw [hw, BitVec.ofNat_eq_ofNat, BitVec.toNat_ofNat, Nat.zero_mod]; omega

end DecHdr

@[simp] theorem errCsumExpected_errCsumWord (e r : Byte) : errCsumExpected (errCsumWord e r) = e := by
  apply BitVec.eq_of_toNat_eq
  have := e.isLt
  simp only [errCsumExpected, BitVec.extractLsb'_toNat, errCsumWord_toNat, Nat.shiftRight_zero]
  omega

@[simp] theorem errCsumReceived_errCsumWord (e r : Byte) : errCsumReceived (errCsumWord e r) = r := by
  apply BitVec.eq_of_toNat_eq
  have := e.isLt
  have := r.isLt
  simp only [errCsumReceived, BitVec.extractLsb'_toNat, errCsumWord_toNat, Nat.shiftRight_eq_div_pow]
  omega

@[simp] theorem errCsumWord_reserved (e r : Byte) : (errCsumWord e r).extractLsb' 16 16 = 0 := by
  apply BitVec.eq_of_toNat_eq
  have := e.isLt
  have := r.isLt
  simp only [BitVec.extractLsb'_toNat, errCsumWord_toNat, Nat.shiftRight_eq_div_pow,
    BitVec.ofNat_eq_ofNat, BitVec.toNat_ofNat]
  omega

@[simp] theorem ackRsnCatBad_ackRsnWord (a b : Bool) : ackRsnCatBad (ackRsnWord a b) = a := by
  cases a <;> cases b <;> rfl

@[simp] theorem ackRsnCmdBad_ackRsnWord (a b : Bool) : ackRsnCmdBad (ackRsnWord a b) = b := by
  cases a <;> cases b <;> rfl

@[simp] theorem ackRsnWord_reserved (a b : Bool) : (ackRsnWord a b).extractLsb' 2 30 = 0 := by
  cases a <;> cases b <;> rfl

@[simp] theorem otpResMatch_otpResWord (e c : Byte) : otpResMatch (otpResWord e c) = (e == c) := by
  refine bit_eq _ 0 0 (128 * e.toNat + 32768 * c.toNat) ?_ (by decide)
  rw [otpResWord_toNat]; omega

@[simp] theorem otpResExpected_otpResWord (e c : Byte) : otpResExpected (otpResWord e c) = e := by
  have := toNat_bool_lt (e == c)
  refine field_eq _ 8 (e == c).toNat c.toNat ?_ (by omega)
  rw [otpResWord_toNat]; omega

@[simp] theorem otpResComputed_otpResWord (e c : Byte) : otpResComputed (otpResWord e c) = c := by
  have := e.isLt
  have := toNat_bool_lt (e == c)
  refine field_eq _ 16 ((e == c).toNat + 256 * e.toNat) 0 ?_ (by omega)
  rw [otpResWord_toNat]; omega

@[simp] theorem otpResWord_reserved (e c : Byte) :
    (otpResWord e c).extractLsb' 1 7 = 0 ∧ (otpResWord e c).extractLsb' 24 8 = 0 := by
  have := e.isLt
  have := c.isLt
  have := toNat_bool_lt (e == c)
  constructor
  · refine field_eq _ 1 (e == c).toNat (e.toNat + 256 * c.toNat) ?_ (by omega)
    rw [otpResWord_toNat, BitVec.ofNat_eq_ofNat, BitVec.toNat_ofNat, Nat.zero_mod]; omega
  · refine field_eq _ 24 ((e == c).toNat + 256 * e.toNat + 65536 * c.toNat) 0 ?_ (by omega)
    rw [otpResWord_toNat, BitVec.ofNat_eq_ofNat, BitVec.toNat_ofNat, Nat.zero_mod]; omega

end Sys2Proof.Machine
end

