-- ==== Sys2Proof/Laws/Memory.lean ====
section
/-! SUPPORT. The laws of the memories: what a read gives after a write, that writes keep the canonical
form and the bounds, that a canonical memory is determined by its reads, and what reading a range
answers. -/

namespace Sys2Proof.Machine

@[simp] theorem Memory.read?_nil (a : Nat) : Memory.read? [] a = none := rfl

theorem Memory.read?_write (m : Memory) (a : Nat) (b : Byte) (c : Nat) :
    (m.write a b).read? c = if c = a then some b else m.read? c := by
  induction m with
  | nil => simp only [Memory.write, Memory.read?, eq_comm (a := a)]
  | cons x cs ih =>
    obtain ⟨k, v⟩ := x
    simp only [Memory.write]
    split_ifs <;> simp only [Memory.read?, ih] <;> split_ifs <;> first | rfl | omega

theorem Memory.read?_writeBytes (m : Memory) (a : Nat) (bs : List Byte) (c : Nat) :
    (m.writeBytes a bs).read? c = if a ≤ c ∧ c < a + bs.length then bs[c - a]? else m.read? c := by
  induction bs generalizing m a with
  | nil => rw [if_neg (by simp only [List.length_nil]; omega)]; rfl
  | cons b bs ih =>
    simp only [Memory.writeBytes, ih, Memory.read?_write, List.length_cons]
    by_cases h : c = a
    · subst h; rw [if_neg (by omega), if_pos rfl, if_pos (by omega)]; simp
    · by_cases h2 : a + 1 ≤ c ∧ c < a + 1 + bs.length
      · rw [if_pos h2, if_pos (by omega)]
        obtain ⟨d, rfl⟩ : ∃ d, c = a + 1 + d := ⟨c - (a + 1), by omega⟩
        simp [show a + 1 + d - (a + 1) = d by omega, show a + 1 + d - a = d + 1 by omega]
      · rw [if_neg h2, if_neg h, if_neg (by omega)]

/-- Written from index 0 up: the bytes below `bs.length` are `bs`, the others are as before. -/
theorem Memory.read?_writeBytes_zero (m : Memory) (bs : List Byte) (c : Nat) :
    (m.writeBytes 0 bs).read? c = if c < bs.length then bs[c]? else m.read? c := by
  simp [Memory.read?_writeBytes]

theorem Memory.wf_cons (c : Host.Cell) (cs : Memory) :
    Memory.wf (c :: cs) = true ↔ (∀ d ∈ cs, c.1 < d.1) ∧ Memory.wf cs = true := by
  simp [Memory.wf]

theorem Memory.mem_write {m : Memory} {a : Nat} {b : Byte} {d : Host.Cell}
    (h : d ∈ m.write a b) : d.1 = a ∨ d ∈ m := by
  induction m with
  | nil => simp [Memory.write] at h; simp [h]
  | cons x cs ih =>
    obtain ⟨k, v⟩ := x
    simp only [Memory.write] at h
    split at h
    · rcases List.mem_cons.1 h with h | h
      · exact .inl (by simp [h])
      · exact .inr h
    · split at h
      · rcases List.mem_cons.1 h with h | h
        · exact .inl (by simp [h])
        · exact .inr (List.mem_cons_of_mem _ h)
      · rcases List.mem_cons.1 h with h | h
        · exact .inr (by simp [h])
        · exact (ih h).imp id (List.mem_cons_of_mem _)

theorem Memory.wf_write (m : Memory) (a : Nat) (b : Byte) (h : m.wf = true) :
    (m.write a b).wf = true := by
  induction m with
  | nil => rfl
  | cons x cs ih =>
    obtain ⟨k, v⟩ := x
    obtain ⟨h1, h2⟩ := (Memory.wf_cons _ _).1 h
    simp only [Memory.write]
    split
    · refine (Memory.wf_cons _ _).2 ⟨fun d hd => ?_, h⟩
      rcases List.mem_cons.1 hd with rfl | hd
      · assumption
      · exact Nat.lt_trans ‹a < k› (h1 d hd)
    · split
      · subst_vars; exact (Memory.wf_cons _ _).2 ⟨h1, h2⟩
      · refine (Memory.wf_cons _ _).2 ⟨fun d hd => ?_, ih h2⟩
        rcases Memory.mem_write hd with hd | hd
        · simp only [hd]; omega
        · exact h1 d hd

theorem Memory.wf_writeBytes (m : Memory) (a : Nat) (bs : List Byte) (h : m.wf = true) :
    (m.writeBytes a bs).wf = true := by
  induction bs generalizing m a with
  | nil => exact h
  | cons b bs ih => exact ih _ _ (Memory.wf_write m a b h)

theorem Memory.below_write (cap : Nat) (m : Memory) (a : Nat) (b : Byte) (h : m.below cap = true)
    (ha : a < cap) : (m.write a b).below cap = true := by
  simp only [Memory.below, List.all_eq_true, decide_eq_true_eq] at h ⊢
  intro d hd
  rcases Memory.mem_write hd with hd | hd
  · omega
  · exact h d hd

theorem Memory.below_writeBytes (cap : Nat) (m : Memory) (a : Nat) (bs : List Byte)
    (h : m.below cap = true) (ha : a + bs.length ≤ cap) : (m.writeBytes a bs).below cap = true := by
  induction bs generalizing m a with
  | nil => exact h
  | cons b bs ih =>
    simp only [List.length_cons] at ha
    exact ih _ _ (Memory.below_write cap m a b h (by omega)) (by omega)

theorem Memory.read?_eq_none_of_lt {m : Memory} {a : Nat} (h : ∀ d ∈ m, a < d.1) :
    m.read? a = none := by
  induction m with
  | nil => rfl
  | cons x cs ih =>
    obtain ⟨k, v⟩ := x
    have hk : a < k := h (k, v) (List.mem_cons_self ..)
    simp only [Memory.read?]
    rw [if_neg (by omega)]
    exact ih fun d hd => h d (List.mem_cons_of_mem _ hd)

/-- A canonical memory is determined by what its indices read as: equal memories are equal data. -/
theorem Memory.ext_of_wf {m m' : Memory} (h : m.wf = true) (h' : m'.wf = true)
    (hr : ∀ a, m.read? a = m'.read? a) : m = m' := by
  induction m generalizing m' with
  | nil =>
    cases m' with
    | nil => rfl
    | cons y ys => have := hr y.1; simp [Memory.read?] at this
  | cons x xs ih =>
    obtain ⟨k, v⟩ := x
    obtain ⟨h1, h2⟩ := (Memory.wf_cons _ _).1 h
    cases m' with
    | nil => have := hr k; simp [Memory.read?] at this
    | cons y ys =>
      obtain ⟨k', v'⟩ := y
      obtain ⟨h1', h2'⟩ := (Memory.wf_cons _ _).1 h'
      have hk : k = k' := by
        rcases Nat.lt_trichotomy k k' with hlt | heq | hgt
        · have := hr k
          rw [Memory.read?_eq_none_of_lt (m := (k', v') :: ys) (a := k) (by
            intro d hd
            rcases List.mem_cons.1 hd with rfl | hd
            · exact hlt
            · exact Nat.lt_trans hlt (h1' d hd))] at this
          simp [Memory.read?] at this
        · exact heq
        · have := hr k'
          rw [Memory.read?_eq_none_of_lt (m := (k, v) :: xs) (a := k') (by
            intro d hd
            rcases List.mem_cons.1 hd with rfl | hd
            · exact hgt
            · exact Nat.lt_trans hgt (h1 d hd))] at this
          simp [Memory.read?] at this
      subst hk
      have hv : v = v' := by have := hr k; simpa [Memory.read?] using this
      subst hv
      rw [ih h2 h2' fun a => ?_]
      by_cases ha : k = a
      · subst ha
        rw [Memory.read?_eq_none_of_lt h1, Memory.read?_eq_none_of_lt h1']
      · have := hr a
        simpa [Memory.read?, ha] using this

theorem Memory.holds_cons (m : Memory) (a : Nat) (b : Byte) (bs : List Byte) :
    m.Holds a (b :: bs) ↔ m.read? a = some b ∧ m.Holds (a + 1) bs := by
  constructor
  · intro h
    refine ⟨by simpa using h 0 (by simp), fun i hi => ?_⟩
    have := h (i + 1) (by simpa using hi)
    simpa [show a + (i + 1) = a + 1 + i by omega] using this
  · rintro ⟨h0, h1⟩ i hi
    cases i with
    | zero => simpa using h0
    | succ i =>
      have := h1 i (by simpa using hi)
      simpa [show a + (i + 1) = a + 1 + i by omega] using this

theorem Memory.holds_append (m : Memory) (a : Nat) (bs cs : List Byte) :
    m.Holds a (bs ++ cs) ↔ m.Holds a bs ∧ m.Holds (a + bs.length) cs := by
  induction bs generalizing a with
  | nil => simp [Memory.Holds]
  | cons b bs ih =>
    rw [List.cons_append, Memory.holds_cons, Memory.holds_cons, ih, List.length_cons, and_assoc,
      show a + 1 + bs.length = a + (bs.length + 1) by omega]

/-- Reading a range answers its bytes exactly when the memory holds them. -/
theorem readBytes_eq_ok_iff (id : MemId) (m : Memory) (a n : Nat) (bs : List Byte) :
    readBytes id m a n = .ok bs ↔ bs.length = n ∧ m.Holds a bs := by
  induction n generalizing a bs with
  | zero =>
    simp only [readBytes, Except.ok.injEq]
    constructor
    · rintro rfl; exact ⟨rfl, fun i hi => by simp at hi⟩
    · rintro ⟨h, -⟩; exact (List.length_eq_zero_iff.1 h).symm
  | succ n ih =>
    simp only [readBytes, readByte]
    cases hb : m.read? a with
    | none =>
      simp only [reduceCtorEq, false_iff, not_and]
      intro hl hh
      have := hh 0 (by omega)
      rw [Nat.add_zero, hb, List.getElem?_eq_getElem (by omega)] at this
      cases this
    | some b =>
      cases hr : readBytes id m (a + 1) n with
      | error f =>
        simp only [reduceCtorEq, false_iff, not_and]
        intro hl hh
        cases bs with
        | nil => simp at hl
        | cons c cs =>
          have := (ih (a + 1) cs).2 ⟨by simpa using hl, ((Memory.holds_cons ..).1 hh).2⟩
          simp [hr] at this
      | ok cs =>
        simp only [Except.ok.injEq]
        constructor
        · rintro rfl
          obtain ⟨h1, h2⟩ := (ih (a + 1) cs).1 hr
          exact ⟨by simp [h1], (Memory.holds_cons ..).2 ⟨hb, h2⟩⟩
        · rintro ⟨hl, hh⟩
          cases bs with
          | nil => simp at hl
          | cons c ds =>
            obtain ⟨h1, h2⟩ := (Memory.holds_cons ..).1 hh
            have := (ih (a + 1) ds).2 ⟨by simpa using hl, h2⟩
            rw [hr] at this
            simp_all

/-- Reading a range faults exactly when one of its bytes was never written since reset (R36). -/
theorem readBytes_eq_error_iff (id : MemId) (m : Memory) (a n : Nat) :
    (∃ f, readBytes id m a n = .error f) ↔ ∃ i, i < n ∧ m.read? (a + i) = none := by
  induction n generalizing a with
  | zero => simp [readBytes]
  | succ n ih =>
    simp only [readBytes, readByte]
    cases hb : m.read? a with
    | none => simp; exact ⟨0, by omega, by simpa using hb⟩
    | some b =>
      have key : (∃ i, i < n + 1 ∧ m.read? (a + i) = none) ↔
          ∃ i, i < n ∧ m.read? (a + 1 + i) = none := by
        constructor
        · rintro ⟨i, hi, h⟩
          cases i with
          | zero => simp [hb] at h
          | succ i => exact ⟨i, by omega, by rw [← h]; congr 1; omega⟩
        · rintro ⟨i, hi, h⟩
          exact ⟨i + 1, by omega, by rw [← h]; congr 1; omega⟩
      rw [key, ← ih (a + 1)]
      cases readBytes id m (a + 1) n <;> simp

/-- Every fault of a range read is that of a never-written byte of that memory (R36). -/
theorem readBytes_fault (id : MemId) (m : Memory) (a n : Nat) (f : Fault)
    (h : readBytes id m a n = .error f) :
    ∃ i, i < n ∧ m.read? (a + i) = none ∧ f = .neverWrittenByte id (a + i) := by
  induction n generalizing a with
  | zero => simp [readBytes] at h
  | succ n ih =>
    simp only [readBytes, readByte] at h
    cases hb : m.read? a with
    | none =>
      simp only [hb, Except.error.injEq] at h
      exact ⟨0, by omega, hb, by simp [← h]⟩
    | some b =>
      rw [hb] at h
      cases hr : readBytes id m (a + 1) n with
      | ok cs => simp [hr] at h
      | error g =>
        simp only [hr, Except.error.injEq] at h
        obtain ⟨i, h1, h2, h3⟩ := ih (a + 1) (h ▸ hr)
        exact ⟨i + 1, by omega, by rw [← h2]; congr 1; omega, by rw [h3]; congr 1; omega⟩

/-- What a range read answers depends only on the bytes of the range. -/
theorem readBytes_congr (id : MemId) (m m' : Memory) (a n : Nat)
    (h : ∀ i, i < n → m.read? (a + i) = m'.read? (a + i)) :
    readBytes id m a n = readBytes id m' a n := by
  induction n generalizing a with
  | zero => rfl
  | succ n ih =>
    have h0 : m.read? a = m'.read? a := h 0 (by omega)
    have h1 := ih (a + 1) fun i hi => by
      have := h (i + 1) (by omega)
      rwa [show a + (i + 1) = a + 1 + i by omega] at this
    simp only [readBytes, readByte, h0, h1]

theorem reset_memories_wf : ∀ m, (State.reset.mem m).wf = true := by
  intro m; cases m <;> rfl

end Sys2Proof.Machine
end

