-- ==== Sys2Proof/Laws/Ops.lean ====
section
/-! SUPPORT. What the shared operations of Machine/Ops.lean can do: the end of an operation, a read
followed by the rest, the common check; and what an operation's input is. -/

namespace Sys2Proof.Machine

theorem raise_eq (c : StatusCode) (s : State) : raise c s = .next ((s.setStatus c).setOutLen 0) := rfl

theorem finishOk_eq (s : State) : finishOk s = .next (s.setStatus .ok) := rfl

@[simp] theorem raise_eq_next (c : StatusCode) (s t : State) :
    raise c s = .next t ↔ t = (s.setStatus c).setOutLen 0 := by
  simp only [raise, Host.Outcome.next.injEq, eq_comm]

@[simp] theorem finishOk_eq_next (s t : State) : finishOk s = .next t ↔ t = s.setStatus .ok := by
  simp only [finishOk, Host.Outcome.next.injEq, eq_comm]

@[simp] theorem raise_ne_refused (c : StatusCode) (s : State) (r : Refusal) :
    raise c s ≠ .refused r := nofun

@[simp] theorem finishOk_ne_refused (s : State) (r : Refusal) : finishOk s ≠ .refused r := nofun

@[simp] theorem raise_ne_fault (c : StatusCode) (s : State) (f : Fault) : raise c s ≠ .fault f := nofun

@[simp] theorem finishOk_ne_fault (s : State) (f : Fault) : finishOk s ≠ .fault f := nofun

@[simp] theorem withRead_ok {α : Type} (v : α) (k : α → Result) : withRead (.ok v) k = k v := rfl

@[simp] theorem withRead_error {α : Type} (f : Fault) (k : α → Result) :
    withRead (.error f) k = .fault f := rfl

/-- A read and the rest answer a next state exactly when the read answers a value and the rest goes on
to that state. -/
theorem withRead_eq_next {α : Type} (r : Except Fault α) (k : α → Result) (t : State) :
    withRead r k = .next t ↔ ∃ v, r = .ok v ∧ k v = .next t := by
  cases r <;> simp

theorem withRead_eq_refused {α : Type} (r : Except Fault α) (k : α → Result) (q : Refusal) :
    withRead r k = .refused q ↔ ∃ v, r = .ok v ∧ k v = .refused q := by
  cases r <;> simp

/-- A read and the rest fault exactly when the read faults, or answers a value on which the rest faults. -/
theorem withRead_eq_fault {α : Type} (r : Except Fault α) (k : α → Result) (f : Fault) :
    withRead r k = .fault f ↔ r = .error f ∨ ∃ v, r = .ok v ∧ k v = .fault f := by
  cases r <;> simp

theorem checkInput_of_le (p : Params) (s : State) (k : Result) (h : inputLength s ≤ p.inCap) :
    checkInput p s k = k := if_neg (by omega)

theorem checkInput_of_lt (p : Params) (s : State) (k : Result) (h : p.inCap < inputLength s) :
    checkInput p s k = raise .capacity s := if_pos h

/-- The common check of R117 either raises CAPACITY or goes on. -/
theorem checkInput_eq_next (p : Params) (s : State) (k : Result) (t : State) :
    checkInput p s k = .next t ↔
      (p.inCap < inputLength s ∧ t = (s.setStatus .capacity).setOutLen 0) ∨
      (inputLength s ≤ p.inCap ∧ k = .next t) := by
  rcases Nat.lt_or_ge p.inCap (inputLength s) with h | h
  · rw [checkInput_of_lt p s k h, raise_eq_next]
    constructor
    · exact fun e => .inl ⟨h, e⟩
    · rintro (⟨-, e⟩ | ⟨h', -⟩)
      · exact e
      · omega
  · rw [checkInput_of_le p s k h]
    constructor
    · exact fun e => .inr ⟨h, e⟩
    · rintro (⟨h', -⟩ | ⟨-, e⟩)
      · omega
      · exact e

theorem checkInput_ne_refused (p : Params) (s : State) (k : Result) (q : Refusal)
    (h : k ≠ .refused q) : checkInput p s k ≠ .refused q := by
  rcases Nat.lt_or_ge p.inCap (inputLength s) with h' | h'
  · rw [checkInput_of_lt p s k h']; exact raise_ne_refused _ _ _
  · rwa [checkInput_of_le p s k h']

/-- The common check never faults: what faults is what comes after it, on an input that fits IN. -/
theorem checkInput_eq_fault (p : Params) (s : State) (k : Result) (f : Fault) :
    checkInput p s k = .fault f ↔ inputLength s ≤ p.inCap ∧ k = .fault f := by
  rcases Nat.lt_or_ge p.inCap (inputLength s) with h | h
  · rw [checkInput_of_lt p s k h]
    exact ⟨nofun, fun e => absurd e.1 (by omega)⟩
  · rw [checkInput_of_le p s k h]
    exact ⟨fun e => ⟨h, e⟩, fun e => e.2⟩

theorem readInBytes_eq_ok_iff (s : State) (a n : Nat) (bs : List Byte) :
    readInBytes s a n = .ok bs ↔ bs.length = n ∧ s.inMem.Holds a bs :=
  readBytes_eq_ok_iff ..

theorem readIn_eq_ok_iff (s : State) (a : Nat) (b : Byte) :
    readIn s a = .ok b ↔ s.inMem.read? a = some b := by
  simp only [readIn, readByte]; cases s.inMem.read? a <;> simp

theorem readIn_eq_error (s : State) (a : Nat) (h : s.inMem.read? a = none) :
    readIn s a = .error (.neverWrittenByte .inp a) := by
  simp only [readIn, readByte, h]

theorem readIn_fault {s : State} {a : Nat} {f : Fault} (h : readIn s a = .error f) :
    s.inMem.read? a = none ∧ f = .neverWrittenByte .inp a := by
  cases hb : s.inMem.read? a with
  | some b => rw [(readIn_eq_ok_iff ..).2 hb] at h; cases h
  | none => rw [readIn_eq_error s a hb, Except.error.injEq] at h; exact ⟨rfl, h.symm⟩

theorem readTable_eq_ok_iff (s : State) (x b : Byte) :
    readTable s x = .ok b ↔ s.table.read? x.toNat = some b := by
  simp only [readTable, readByte]; cases s.table.read? x.toNat <;> simp

theorem readTable_eq_error (s : State) (x : Byte) (h : s.table.read? x.toNat = none) :
    readTable s x = .error (.neverWrittenByte .table x.toNat) := by
  simp only [readTable, readByte, h]

theorem readTable_fault {s : State} {x : Byte} {f : Fault} (h : readTable s x = .error f) :
    s.table.read? x.toNat = none ∧ f = .neverWrittenByte .table x.toNat := by
  cases hb : s.table.read? x.toNat with
  | some b => rw [(readTable_eq_ok_iff ..).2 hb] at h; cases h
  | none => rw [readTable_eq_error s x hb, Except.error.injEq] at h; exact ⟨rfl, h.symm⟩

/-- The whole input of an operation, when it is `bs`. -/
theorem readInput_of_inputIs {s : State} {bs : List Byte} (h : InputIs s bs) :
    readInBytes s 0 (inputLength s) = .ok bs :=
  (readInBytes_eq_ok_iff ..).2 ⟨h.1.symm, h.2⟩

theorem inputIs_of_readInput {s : State} {bs : List Byte}
    (h : readInBytes s 0 (inputLength s) = .ok bs) : InputIs s bs :=
  let ⟨h1, h2⟩ := (readInBytes_eq_ok_iff ..).1 h
  ⟨h1.symm, h2⟩

/-- A byte of IN in the range read that was never written makes the read fault (R36). -/
theorem readInBytes_error_of_none {s : State} {a n i : Nat} (hi : i < n)
    (h : s.inMem.read? (a + i) = none) : ∃ f, readInBytes s a n = .error f :=
  (readBytes_eq_error_iff ..).2 ⟨i, hi, h⟩

end Sys2Proof.Machine
end

