-- ==== Sys2Proof/Laws/Operations.lean ====
section
/-! SUPPORT. What each operation can do: if it answers a next state, which one of its endings it is.
Proofs about operations cite these and do not unfold the meanings again. -/

namespace Sys2Proof.Machine

theorem exec_csum (s : State) : exec .csum s = runCsum Config.params s := rfl

theorem exec_fenc (cat : Category) (cmd : Command) (calcBit pad : Bool) (s : State) :
    exec (.fenc cat cmd calcBit pad) s = runFenc Config.params cat cmd calcBit pad s := rfl

theorem exec_fdec (s : State) : exec .fdec s = runFdec Config.params s := rfl

theorem exec_ackchk (cat : Category) (cmd : Command) (s : State) :
    exec (.ackchk cat cmd) s = execAckchk cat cmd s := rfl

theorem exec_otpv (s : State) : exec .otpv s = runOtpv Config.params s := rfl

theorem exec_imgu (wide : Bool) (s : State) : exec (.imgu wide) s = runImgu Config.params wide s := rfl

theorem exec_fdtb (s : State) : exec .fdtb s = runFdtb Config.params s := rfl

/-- CSUM: CAPACITY, or the checksum of the input. -/
theorem runCsum_next {p : Params} {s t : State} (h : runCsum p s = .next t) :
    (p.inCap < inputLength s ∧ t = (s.setStatus .capacity).setOutLen 0) ∨
    (inputLength s ≤ p.inCap ∧ ∃ bs, InputIs s bs ∧
      t = ((s.setCsumRes (csumResWord (checksum bs))).setOutLen 0).setStatus .ok) := by
  rcases (checkInput_eq_next ..).1 h with h | ⟨hc, h⟩
  · exact .inl h
  · obtain ⟨bs, hbs, h⟩ := (withRead_eq_next ..).1 h
    exact .inr ⟨hc, bs, inputIs_of_readInput hbs, (finishOk_eq_next ..).1 h⟩

/-- FENC: CAPACITY for the input, ENCODE_RANGE, CAPACITY for the output, or the padded frame. -/
theorem runFenc_next {p : Params} {cat : Category} {cmd : Command} {calcBit pad : Bool} {s t : State}
    (h : runFenc p cat cmd calcBit pad s = .next t) :
    (p.inCap < inputLength s ∧ t = (s.setStatus .capacity).setOutLen 0) ∨
    (inputLength s ≤ p.inCap ∧ maxPayload < inputLength s ∧
      t = (s.setStatus .encodeRange).setOutLen 0) ∨
    (inputLength s ≤ p.inCap ∧ inputLength s ≤ maxPayload ∧ ∃ pl, InputIs s pl ∧
      ((p.outCap < frameTotal p (inputLength s) pad ∧ t = (s.setStatus .capacity).setOutLen 0) ∨
       (frameTotal p (inputLength s) pad ≤ p.outCap ∧
        t = ((s.putOut (padFrame (encodeFrame cat cmd pl calcBit)
          (frameTotal p (inputLength s) pad))).setOutLen
          (frameTotal p (inputLength s) pad)).setStatus .ok))) := by
  rcases (checkInput_eq_next ..).1 h with h | ⟨hc, h⟩
  · exact .inl h
  · split at h
    · exact .inr (.inl ⟨hc, ‹_›, (raise_eq_next ..).1 h⟩)
    · obtain ⟨pl, hpl, h⟩ := (withRead_eq_next ..).1 h
      refine .inr (.inr ⟨hc, by omega, pl, inputIs_of_readInput hpl, ?_⟩)
      split at h
      · exact .inl ⟨‹_›, (raise_eq_next ..).1 h⟩
      · exact .inr ⟨by omega, (finishOk_eq_next ..).1 h⟩

/-- The last part of FDEC: CAPACITY for the output, or the payload delivered. -/
theorem deliverPayload_next {p : Params} {b0 : Byte} {declared : Half} {skipped : Bool} {s t : State}
    (h : deliverPayload p b0 declared skipped s = .next t) :
    (p.outCap < payloadLength declared ∧ t = (s.setStatus .capacity).setOutLen 0) ∨
    (payloadLength declared ≤ p.outCap ∧ ∃ pl, pl.length = payloadLength declared ∧
      s.inMem.Holds hdrSize pl ∧
      t = (((s.putOut pl).setDecHdr (decHdrWord b0 skipped declared)).setOutLen
        (payloadLength declared)).setStatus .ok) := by
  simp only [deliverPayload] at h
  split at h
  · exact .inl ⟨‹_›, (raise_eq_next ..).1 h⟩
  · obtain ⟨pl, hpl, h⟩ := (withRead_eq_next ..).1 h
    obtain ⟨h1, h2⟩ := (readInBytes_eq_ok_iff ..).1 hpl
    exact .inr ⟨by omega, pl, h1, h2, (finishOk_eq_next ..).1 h⟩

/-- FDEC: CAPACITY for the input, TRUNCATED_FRAME, CHECKSUM_MISMATCH with both values, CAPACITY for
the output, or the payload delivered. -/
theorem runFdec_next {p : Params} {s t : State} (h : runFdec p s = .next t) :
    (p.inCap < inputLength s ∧ t = (s.setStatus .capacity).setOutLen 0) ∨
    (inputLength s ≤ p.inCap ∧ t = (s.setStatus .truncatedFrame).setOutLen 0) ∨
    (inputLength s ≤ p.inCap ∧ ∃ hdr declared rcv, hdr.length = hdrSize ∧ s.inMem.Holds 0 hdr ∧
      declared = halfOfBytes (hdr.getD 1 0) (hdr.getD 2 0) ∧ declared ≠ 0 ∧
      dataSpan declared + 1 ≤ inputLength s ∧ s.inMem.read? (dataSpan declared) = some rcv ∧
      ((rcv = csumSentinel ∧ deliverPayload p (hdr.getD 0 0) declared true s = .next t) ∨
       (rcv ≠ csumSentinel ∧ ∃ body, body.length = dataSpan declared ∧ s.inMem.Holds 0 body ∧
        ((checksum body = rcv ∧ deliverPayload p (hdr.getD 0 0) declared false s = .next t) ∨
         (checksum body ≠ rcv ∧
          t = ((s.setErrCsum (errCsumWord (checksum body) rcv)).setStatus
            .checksumMismatch).setOutLen 0))))) := by
  rcases (checkInput_eq_next ..).1 h with h | ⟨hc, h⟩
  · exact .inl h
  refine .inr ?_
  split at h
  · exact .inl ⟨hc, (raise_eq_next ..).1 h⟩
  obtain ⟨hdr, hh, h⟩ := (withRead_eq_next ..).1 h
  obtain ⟨hl, hh⟩ := (readInBytes_eq_ok_iff ..).1 hh
  simp only at h
  split at h
  · exact .inl ⟨hc, (raise_eq_next ..).1 h⟩
  split at h
  · exact .inl ⟨hc, (raise_eq_next ..).1 h⟩
  obtain ⟨rcv, hr, h⟩ := (withRead_eq_next ..).1 h
  refine .inr ⟨hc, hdr, _, rcv, hl, hh, rfl, ‹_›, by omega, (readIn_eq_ok_iff ..).1 hr, ?_⟩
  split at h
  · exact .inl ⟨‹_›, h⟩
  · obtain ⟨body, hb, h⟩ := (withRead_eq_next ..).1 h
    obtain ⟨hbl, hb⟩ := (readInBytes_eq_ok_iff ..).1 hb
    refine .inr ⟨‹_›, body, hbl, hb, ?_⟩
    split at h
    · exact .inl ⟨‹_›, h⟩
    · exact .inr ⟨‹_›, (raise_eq_next ..).1 h⟩

/-- ACKCHK always answers a next state: OK for the ack pair, INVALID_ACK otherwise, with both reasons
recorded. -/
theorem execAckchk_eq (cat : Category) (cmd : Command) (s : State) :
    execAckchk cat cmd s =
      .next (((s.setAckRsn (ackRsnWord (cat != ackCategory) (cmd != ackCommand))).setOutLen 0).setStatus
        (if cat = ackCategory ∧ cmd = ackCommand then .ok else .invalidAck)) := by
  by_cases h1 : cat = ackCategory <;> by_cases h2 : cmd = ackCommand <;>
    simp [execAckchk, h1, h2, raise, finishOk] <;> rfl

/-- OTPV: CAPACITY, OTP_TOO_SHORT, or the two hashes. -/
theorem runOtpv_next {p : Params} {s t : State} (h : runOtpv p s = .next t) :
    (p.inCap < inputLength s ∧ t = (s.setStatus .capacity).setOutLen 0) ∨
    (inputLength s ≤ p.inCap ∧ inputLength s < otpHashOffset + 1 ∧
      t = (s.setStatus .otpTooShort).setOutLen 0) ∨
    (inputLength s ≤ p.inCap ∧ otpHashOffset + 1 ≤ inputLength s ∧ ∃ o st, InputIs s o ∧
      otpWalk (readTable s) 0 0 o = .ok st ∧
      t = ((s.setOtpRes (otpResWord (o.getD otpHashOffset 0) (~~~ st))).setOutLen 0).setStatus .ok) := by
  rcases (checkInput_eq_next ..).1 h with h | ⟨hc, h⟩
  · exact .inl h
  · split at h
    · exact .inr (.inl ⟨hc, ‹_›, (raise_eq_next ..).1 h⟩)
    · obtain ⟨o, ho, h⟩ := (withRead_eq_next ..).1 h
      obtain ⟨st, hst, h⟩ := (withRead_eq_next ..).1 h
      exact .inr (.inr ⟨hc, by omega, o, st, inputIs_of_readInput ho, hst, (finishOk_eq_next ..).1 h⟩)

/-- IMGU: CAPACITY for the input, BAD_IMAGE_LENGTH, CAPACITY for the output, or the samples. -/
theorem runImgu_next {p : Params} {wide : Bool} {s t : State} (h : runImgu p wide s = .next t) :
    (p.inCap < inputLength s ∧ t = (s.setStatus .capacity).setOutLen 0) ∨
    (inputLength s ≤ p.inCap ∧ inputLength s % chunkIn ≠ 0 ∧
      t = (s.setStatus .badImageLength).setOutLen 0) ∨
    (inputLength s ≤ p.inCap ∧ inputLength s % chunkIn = 0 ∧
      p.outCap < imageTotal (inputLength s) wide ∧ t = (s.setStatus .capacity).setOutLen 0) ∨
    (inputLength s ≤ p.inCap ∧ inputLength s % chunkIn = 0 ∧
      imageTotal (inputLength s) wide ≤ p.outCap ∧ ∃ bs, InputIs s bs ∧
      t = ((s.putOut (imageBytes wide bs)).setOutLen
        (imageTotal (inputLength s) wide)).setStatus .ok) := by
  rcases (checkInput_eq_next ..).1 h with h | ⟨hc, h⟩
  · exact .inl h
  · split at h
    · exact .inr (.inl ⟨hc, ‹_›, (raise_eq_next ..).1 h⟩)
    · split at h
      · exact .inr (.inr (.inl ⟨hc, by omega, ‹_›, (raise_eq_next ..).1 h⟩))
      · obtain ⟨bs, hbs, h⟩ := (withRead_eq_next ..).1 h
        exact .inr (.inr (.inr ⟨hc, by omega, by omega, bs, inputIs_of_readInput hbs,
          (finishOk_eq_next ..).1 h⟩))

/-- FDTB: CAPACITY for the input, CAPACITY for the output, or the base table. -/
theorem runFdtb_next {p : Params} {s t : State} (h : runFdtb p s = .next t) :
    (p.inCap < inputLength s ∧ t = (s.setStatus .capacity).setOutLen 0) ∨
    (inputLength s ≤ p.inCap ∧ p.outCap < fdtTotal (inputLength s) ∧
      t = (s.setStatus .capacity).setOutLen 0) ∨
    (inputLength s ≤ p.inCap ∧ fdtTotal (inputLength s) ≤ p.outCap ∧ ∃ bs,
      bs.length = fdtTotal (inputLength s) ∧ s.inMem.Holds 0 bs ∧
      t = ((s.putOut (fdtBytes bs)).setOutLen (fdtTotal (inputLength s))).setStatus .ok) := by
  rcases (checkInput_eq_next ..).1 h with h | ⟨hc, h⟩
  · exact .inl h
  · split at h
    · exact .inr (.inl ⟨hc, ‹_›, (raise_eq_next ..).1 h⟩)
    · obtain ⟨bs, hbs, h⟩ := (withRead_eq_next ..).1 h
      obtain ⟨h1, h2⟩ := (readInBytes_eq_ok_iff ..).1 hbs
      exact .inr (.inr ⟨hc, by omega, bs, h1, h2, (finishOk_eq_next ..).1 h⟩)

/-! ### How many bytes an operation writes -/

@[simp] theorem encodeFrame_length (cat : Category) (cmd : Command) (pl : List Byte) (calcBit : Bool) :
    (encodeFrame cat cmd pl calcBit).length = 4 + pl.length := by
  simp [encodeFrame, frameHeader, halfBytes]; omega

theorem padFrame_length (f : List Byte) (total : Nat) (h : f.length ≤ total) :
    (padFrame f total).length = total := by
  simp [padFrame]; omega

theorem frameTotal_ge (p : Params) (n : Nat) (pad : Bool) (hb : 1 ≤ p.blockSize) :
    4 + n ≤ frameTotal p n pad := by
  simp only [frameTotal]
  split
  · have h1 := Nat.div_add_mod (4 + n + p.blockSize - 1) p.blockSize
    have h2 := Nat.mod_lt (4 + n + p.blockSize - 1) hb
    rw [Nat.mul_comm] at h1
    omega
  · exact Nat.le_refl _

theorem unpackStream_length (bs : List Byte) : (unpackStream bs).length = bs.length / 6 * 4 := by
  induction bs using unpackStream.induct with
  | case1 c0 c1 c2 c3 c4 c5 cs ih =>
    simp only [unpackStream, unpackChunk, List.length_append, List.length_cons, List.length_nil, ih]
    omega
  | case2 t h =>
    rw [unpackStream]
    · match t, h with
      | [], _ => rfl
      | [_], _ => simp
      | [_, _], _ => simp
      | [_, _, _], _ => simp
      | [_, _, _, _], _ => simp
      | [_, _, _, _, _], _ => simp
      | a :: b :: c :: d :: e :: f :: t, h => exact absurd rfl (h a b c d e f t)
    · exact h

theorem imageBytes_length (wide : Bool) (bs : List Byte) :
    (imageBytes wide bs).length = imageTotal bs.length wide := by
  have h : ∀ l : List Sample,
      (l.flatMap (storeSample wide)).length = l.length * (if wide then 2 else 1) := by
    intro l
    induction l with
    | nil => simp
    | cons x xs ih =>
      rw [List.flatMap_cons, List.length_append, ih, List.length_cons]
      cases wide <;> simp [storeSample, halfBytes] <;> omega
  rw [imageBytes, h, unpackStream_length]
  rfl

theorem fdtBytes_length (bs : List Byte) : (fdtBytes bs).length = fdtTotal bs.length := by
  induction bs using fdtBytes.induct with
  | case1 lo hi rest ih =>
    simp only [fdtBytes, halfBytes, List.length_append, List.length_cons, List.length_nil, ih, fdtTotal]
    omega
  | case2 t h =>
    match t, h with
    | [], _ => rfl
    | [_], _ => simp [fdtBytes, fdtTotal]
    | a :: b :: t, h => exact absurd rfl (h a b t)

/-- The OTP walk answers the running state of R100 when every entry it indexes is written. -/
theorem otpState_of_otpWalk (look : Byte → Except Fault Byte) (T : Byte → Byte)
    (hT : ∀ x b, look x = .ok b → T x = b) (i : Nat) (st st' : Byte) (o : List Byte)
    (h : otpWalk look i st o = .ok st') : otpState T i st o = st' := by
  induction o generalizing i st with
  | nil => simpa [otpWalk, otpState] using h
  | cons b o ih =>
    simp only [otpWalk] at h
    simp only [otpState]
    split at h
    · rw [if_pos ‹_›]; exact ih _ _ h
    · rw [if_neg ‹_›]
      cases hl : look (st ^^^ b) with
      | error f => simp [hl] at h
      | ok v =>
        rw [hl] at h
        rw [hT _ _ hl]
        exact ih _ _ h

/-- The OTP walk faults only with the fault of a look-up (R36, R101). -/
theorem otpWalk_fault {look : Byte → Except Fault Byte} {i : Nat} {st : Byte} {o : List Byte} {f : Fault}
    (h : otpWalk look i st o = .error f) : ∃ x, look x = .error f := by
  induction o generalizing i st with
  | nil => cases h
  | cons b o ih =>
    simp only [otpWalk] at h
    split at h
    · exact ih h
    · cases hl : look (st ^^^ b) with
      | error g => rw [hl] at h; exact ⟨_, hl.trans h⟩
      | ok v => rw [hl] at h; exact ih h

/-- The OTP walk answers when every entry it indexes is written. -/
theorem otpWalk_eq_ok (look : Byte → Except Fault Byte) (T : Byte → Byte) (i : Nat) (st : Byte)
    (o : List Byte)
    (h : ∀ k, k < o.length → i + k ≠ otpHashOffset →
      look (otpState T i st (o.take k) ^^^ o.getD k 0) =
        .ok (T (otpState T i st (o.take k) ^^^ o.getD k 0))) :
    otpWalk look i st o = .ok (otpState T i st o) := by
  induction o generalizing i st with
  | nil => rfl
  | cons b o ih =>
    have next : ∀ st', st' = (if i = otpHashOffset then st else T (st ^^^ b)) →
        otpWalk look (i + 1) st' o = .ok (otpState T (i + 1) st' o) := by
      rintro _ rfl
      refine ih _ _ fun k hk hne => ?_
      simpa [otpState] using h (k + 1) (by simpa using hk) (by omega)
    simp only [otpWalk, otpState]
    by_cases hi : i = otpHashOffset
    · rw [if_pos hi, if_pos hi]; exact next st (by rw [if_pos hi])
    · have h0 := h 0 (by simp) (by simpa using hi)
      simp only [List.take_zero, otpState, List.getD_cons_zero] at h0
      rw [if_neg hi, if_neg hi, h0]; exact next _ (by rw [if_neg hi])

/-- The OTP walk faults when an entry it indexes was never written. -/
theorem otpWalk_eq_error (look : Byte → Except Fault Byte) (T : Byte → Byte)
    (hT : ∀ x b, look x = .ok b → T x = b) (i : Nat) (st : Byte) (o : List Byte) (k : Nat)
    (hk : k < o.length) (hne : i + k ≠ otpHashOffset)
    (h : ∃ f, look (otpState T i st (o.take k) ^^^ o.getD k 0) = .error f) :
    ∃ f, otpWalk look i st o = .error f := by
  rcases hw : otpWalk look i st o with f | st'
  · exact ⟨f, rfl⟩
  exfalso
  induction o generalizing i st k with
  | nil => simp at hk
  | cons b o ih =>
    obtain ⟨f, hf⟩ := h
    simp only [otpWalk] at hw
    cases k with
    | zero =>
      simp only [List.take_zero, otpState, List.getD_cons_zero] at hf
      rw [if_neg (by simpa using hne), hf] at hw
      cases hw
    | succ k =>
      simp only [List.take_succ_cons, otpState, List.getD_cons_succ] at hf
      simp only [List.length_cons] at hk
      by_cases hi : i = otpHashOffset
      · rw [if_pos hi] at hw hf
        exact ih (i + 1) st k (by omega) (by omega) ⟨f, hf⟩ hw
      · rw [if_neg hi] at hw hf
        cases hl : look (st ^^^ b) with
        | error g => rw [hl] at hw; cases hw
        | ok v =>
          rw [hT _ _ hl] at hf
          rw [hl] at hw
          exact ih (i + 1) v k (by omega) (by omega) ⟨f, hf⟩ hw

end Sys2Proof.Machine
end

