-- ==== Sys2Proof/Laws/Endings.lean ====
section
/-! SUPPORT. Every way an operation can end with a next state, said once over all operations
(60_exceptions.md R116, R120): whole-machine claims are case analyses of `Ending`. -/

namespace Sys2Proof.Machine

/-- The error codes that `i` raises with no detail register (R116). -/
def raisesPlain : Instr → StatusCode → Prop
  | .ackchk _ _, _ => False
  | _, .capacity => True
  | .fenc _ _ _ _, .encodeRange => True
  | .fdec, .truncatedFrame => True
  | .imgu _, .badImageLength => True
  | .otpv, .otpTooShort => True
  | _, _ => False

/-- The endings of an operation `i` started in `s`. -/
inductive Ending (s : State) : Instr → State → Prop where
  /-- An error that records no detail. -/
  | plain (i : Instr) (c : StatusCode) (h : raisesPlain i c) :
      Ending s i ((s.setStatus c).setOutLen 0)
  /-- FDEC's CHECKSUM_MISMATCH. -/
  | mismatch (e r : Byte) (h : e ≠ r) (hr : r ≠ csumSentinel) :
      Ending s .fdec (((s.setErrCsum (errCsumWord e r)).setStatus .checksumMismatch).setOutLen 0)
  /-- ACKCHK, either way. -/
  | ack (cat : Category) (cmd : Command) :
      Ending s (.ackchk cat cmd)
        (((s.setAckRsn (ackRsnWord (cat != ackCategory) (cmd != ackCommand))).setOutLen 0).setStatus
          (if cat = ackCategory ∧ cmd = ackCommand then .ok else .invalidAck))
  /-- CSUM's result. -/
  | csum (bs : List Byte) (hb : InputIs s bs) :
      Ending s .csum (((s.setCsumRes (csumResWord (checksum bs))).setOutLen 0).setStatus .ok)
  /-- OTPV's result. -/
  | otp (o : List Byte) (st : Byte) (ho : InputIs s o) (hst : otpWalk (readTable s) 0 0 o = .ok st) :
      Ending s .otpv
        (((s.setOtpRes (otpResWord (o.getD otpHashOffset 0) (~~~ st))).setOutLen 0).setStatus .ok)
  /-- FDEC's payload. -/
  | decoded (b0 : Byte) (declared : Half) (skipped : Bool) (pl : List Byte) (hd : declared ≠ 0)
      (hl : pl.length = payloadLength declared) (hn : pl.length = outputLength .fdec s)
      (hc : pl.length ≤ Config.params.outCap) :
      Ending s .fdec
        ((((s.putOut pl).setDecHdr (decHdrWord b0 skipped declared)).setOutLen pl.length).setStatus .ok)
  /-- An output of FENC, IMGU or FDTB. -/
  | output (i : Instr) (bs : List Byte) (hn : bs.length = outputLength i s)
      (hc : bs.length ≤ Config.params.outCap)
      (hi : (∃ cat cmd calcBit pad, i = .fenc cat cmd calcBit pad) ∨ (∃ wide, i = .imgu wide) ∨ i = .fdtb) :
      Ending s i (((s.putOut bs).setOutLen bs.length).setStatus .ok)

theorem blockSize_pos : 1 ≤ Config.params.blockSize := Nat.le_add_left 1 _

/-- Every next state of an operation is one of its endings. -/
theorem exec_ending {i : Instr} {s t : State} (h : exec i s = .next t) : Ending s i t := by
  cases i with
  | csum =>
    rcases runCsum_next h with ⟨-, rfl⟩ | ⟨-, bs, hb, rfl⟩
    · exact .plain _ _ trivial
    · exact .csum bs hb
  | fenc cat cmd calcBit pad =>
    rcases runFenc_next h with ⟨-, rfl⟩ | ⟨-, -, rfl⟩ | ⟨-, -, pl, hp, ⟨-, rfl⟩ | ⟨hc, rfl⟩⟩
    · exact .plain _ _ trivial
    · exact .plain _ _ trivial
    · exact .plain _ _ trivial
    · have hl := padFrame_length (encodeFrame cat cmd pl calcBit)
        (frameTotal Config.params (inputLength s) pad)
        (by rw [encodeFrame_length, ← hp.1]; exact frameTotal_ge _ _ _ blockSize_pos)
      have := Ending.output (s := s) (.fenc cat cmd calcBit pad) _ hl (by rw [hl]; exact hc)
        (.inl ⟨_, _, _, _, rfl⟩)
      rwa [hl] at this
  | fdec =>
    have deliver : ∀ (b0 : Byte) (declared : Half) (skipped : Bool), declared ≠ 0 →
        payloadLength declared = outputLength .fdec s →
        deliverPayload Config.params b0 declared skipped s = .next t → Ending s .fdec t := by
      intro b0 declared skipped hd hn h
      rcases deliverPayload_next h with ⟨-, rfl⟩ | ⟨hc, pl, hl, -, rfl⟩
      · exact .plain _ _ trivial
      · have := Ending.decoded (s := s) b0 declared skipped pl hd hl (hl.trans hn) (by omega)
        rwa [hl] at this
    rcases runFdec_next h with ⟨-, rfl⟩ | ⟨-, rfl⟩ |
      ⟨-, hdr, declared, rcv, hl, hh, rfl, hd, -, -, h⟩
    · exact .plain _ _ trivial
    · exact .plain _ _ trivial
    · have byte : ∀ k, k < hdrSize → hdr.getD k 0 = (s.inMem.read? k).getD 0 := fun k hk => by
        have := hh k (by omega)
        rw [Nat.zero_add] at this
        rw [this, List.getD_eq_getElem?_getD]
      have hn : payloadLength (halfOfBytes (hdr.getD 1 0) (hdr.getD 2 0)) = outputLength .fdec s := by
        rw [byte 1 (by decide), byte 2 (by decide)]; rfl
      rcases h with ⟨-, h⟩ | ⟨hr, body, -, -, ⟨-, h⟩ | ⟨hne, rfl⟩⟩
      · exact deliver _ _ _ hd hn h
      · exact deliver _ _ _ hd hn h
      · exact .mismatch _ _ hne hr
  | ackchk cat cmd =>
    rw [exec_ackchk, execAckchk_eq, Host.Outcome.next.injEq] at h
    exact h ▸ .ack cat cmd
  | otpv =>
    rcases runOtpv_next h with ⟨-, rfl⟩ | ⟨-, -, rfl⟩ | ⟨-, -, o, st, ho, hst, rfl⟩
    · exact .plain _ _ trivial
    · exact .plain _ _ trivial
    · exact .otp o st ho hst
  | imgu wide =>
    rcases runImgu_next h with ⟨-, rfl⟩ | ⟨-, -, rfl⟩ | ⟨-, -, -, rfl⟩ | ⟨-, -, hc, bs, hb, rfl⟩
    · exact .plain _ _ trivial
    · exact .plain _ _ trivial
    · exact .plain _ _ trivial
    · have hl := imageBytes_length wide bs
      rw [← hb.1] at hl
      have := Ending.output (s := s) (.imgu wide) _ hl (by rw [hl]; exact hc) (.inr (.inl ⟨_, rfl⟩))
      rwa [hl] at this
  | fdtb =>
    rcases runFdtb_next h with ⟨-, rfl⟩ | ⟨-, -, rfl⟩ | ⟨-, hc, bs, hlen, -, rfl⟩
    · exact .plain _ _ trivial
    · exact .plain _ _ trivial
    · have hl : (fdtBytes bs).length = fdtTotal (inputLength s) := by
        rw [fdtBytes_length, hlen]; simp only [fdtTotal]; omega
      have := Ending.output (s := s) .fdtb _ hl (by rw [hl]; exact hc) (.inr (.inr rfl))
      rwa [hl] at this

end Sys2Proof.Machine
end

