-- ==== Sys2Proof/Laws/PerInstr.lean ====
section
/-! SUPPORT. What holds of the descriptor of every operation, one lemma per operation (30_encoding.md
R58–R60). -/

namespace Sys2Proof.Laws.EncodedOp

/-- The descriptor of `i` carries the operation code of `i` in OP, and its reserved bits 15 and 31:19
are 0 (R58). -/
def Statement (i : Instr) : Prop :=
  descOp (encode i) = i.opCode ∧ encode i &&& 0xFFF88000 = 0

theorem csum : Statement .csum := by unfold Statement; decide

theorem fenc (cat : Category) (cmd : Command) (calcBit pad : Bool) :
    Statement (.fenc cat cmd calcBit pad) := by
  unfold Statement; revert cat cmd calcBit pad; decide

theorem fdec : Statement .fdec := by unfold Statement; decide

theorem ackchk (cat : Category) (cmd : Command) : Statement (.ackchk cat cmd) := by
  unfold Statement; revert cat cmd; decide

theorem otpv : Statement .otpv := by unfold Statement; decide

theorem imgu (wide : Bool) : Statement (.imgu wide) := by unfold Statement; revert wide; decide

theorem fdtb : Statement .fdtb := by unfold Statement; decide

end Sys2Proof.Laws.EncodedOp
end

