-- ==== Sys2Proof/Tests/Slice0.lean ====
section
/-! SUPPORT. Tests of one step or one operation each, their expected values from spec/95_test_vectors.md
and the encodings of spec/30_encoding.md; what is refused as ill-formed; and, for every statement of
Obligations.lean that has hypotheses, a concrete input that meets them (the theorems `wit_…`).

The parameters of `Config` are opaque, so an operation is tested through its `run…` in a unit of 512
bytes each way and blocks of 64 bytes, as the vectors assume. -/

open Sys2Proof Sys2Proof.Machine Sys2Proof.Spec

namespace Sys2Proof.Tests

/-- The parameters that spec/95_test_vectors.md assumes. -/
def unit512 : Params := ⟨512, 512, 64⟩

/-- OUT_CAP = 16, as the priority vectors assume. -/
def unit16 : Params := ⟨512, 16, 64⟩

/-- The bytes `bs` at the indices from `a` up. -/
def cells (a : Nat) : List Byte → Memory
  | [] => []
  | b :: bs => (a, b) :: cells (a + 1) bs

/-- A unit after reset in which the host has written IN, IN_LEN and DESC. -/
def ready (d : Word) (bs : List Byte) : State :=
  { State.reset with desc := d, inLen := BitVec.ofNat 32 bs.length, inMem := cells 0 bs }

/-- The host's next step is `h`, after reset. -/
def hostAt (h : HostStep) : State := { State.reset with pending := [h] }

/-- A table given by a function, all 256 entries written. -/
def tableOf (f : Nat → Nat) : Memory := cells 0 ((List.range 256).map fun x => BitVec.ofNat 8 (f x))

/-- The step went on to a state of which `f` holds. -/
def goesOn (r : Result) (f : State → Bool) : Bool :=
  match r with
  | .next t => f t
  | .fault _ => false
  | .refused _ => false

/-- The step ended in the fault `f`. -/
def faultsWith (r : Result) (f : Fault) : Bool :=
  match r with
  | .fault g => g == f
  | .next _ => false
  | .refused _ => false

/-- The step was refused for the reason `q`. -/
def refusedWith (r : Result) (q : Refusal) : Bool :=
  match r with
  | .refused g => g == q
  | .next _ => false
  | .fault _ => false

/-- The bytes of OUT below OUT_LEN. -/
def output (t : State) : List (Option Byte) := (List.range t.outLen.toNat).map t.outMem.read?

/-! ### What is refused as ill-formed (R73, R8) -/

theorem test_wellFormed_refuses_category_16 : (AsmLine.fenc 16 0 true false).wellFormed = false := by decide
theorem test_wellFormed_refuses_command_8 : (AsmLine.fenc 0 8 true false).wellFormed = false := by decide
theorem test_wellFormed_refuses_ack_category : (AsmLine.ackchk 16 0).wellFormed = false := by decide
theorem test_wellFormed_refuses_ack_command : (AsmLine.ackchk 0 8).wellFormed = false := by decide
theorem test_wellFormed_refuses_wide_value : (AsmLine.desc 4294967296).wellFormed = false := by decide
theorem test_wellFormed_accepts_the_largest : (AsmLine.fenc 15 7 true true).wellFormed = true ∧
    (AsmLine.desc 4294967295).wellFormed = true := by decide
theorem test_params_refuse_small_in : Params.wellFormed ⟨25, 4, 1⟩ = false := by decide
theorem test_params_refuse_small_out : Params.wellFormed ⟨26, 3, 1⟩ = false := by decide
theorem test_params_refuse_no_block : Params.wellFormed ⟨26, 4, 0⟩ = false := by decide
theorem test_params_accept_the_vectors : unit512.wellFormed = true ∧ unit16.wellFormed = true := by decide
/-- R8 sets no upper bound. -/
theorem test_params_accept_wide_out : Params.wellFormed ⟨26, 4294967296, 1⟩ = true := by decide
/-- R25: the largest count that 32 bits hold is exact; the next one is free. -/
theorem test_outLenWord : outLenWord 0x00020002 0 4294967295 = 0xFFFFFFFF ∧
    outLenWord 0x00020002 0 4294967296 = Config.freeOutLen 0x00020002 0 :=
  ⟨if_pos (by decide), if_neg (by decide)⟩

/-! ### Decoding: descriptors written out field by field, bits 31:19, 18, 17, 16, 15, 14:12, 11:8 and
7:0 (R58) -/

theorem test_decode_csum : decode (0#13 ++ 0#1 ++ 0#1 ++ 0#1 ++ 0#1 ++ 0#3 ++ 0#4 ++ 1#8) = .ok .csum := by
  decide
theorem test_decode_fenc : decode (0#13 ++ 0#1 ++ 1#1 ++ 0#1 ++ 0#1 ++ 0b110#3 ++ 0b1001#4 ++ 2#8) =
    .ok (.fenc 0b1001 0b110 false true) := by decide
theorem test_decode_fenc_calc : decode (0#13 ++ 0#1 ++ 0#1 ++ 1#1 ++ 0#1 ++ 0b001#3 ++ 0b0111#4 ++ 2#8) =
    .ok (.fenc 0b0111 0b001 true false) := by decide
theorem test_decode_fdec : decode (0#13 ++ 0#1 ++ 0#1 ++ 0#1 ++ 0#1 ++ 0#3 ++ 0#4 ++ 3#8) = .ok .fdec := by
  decide
theorem test_decode_ackchk : decode (0#13 ++ 0#1 ++ 0#1 ++ 0#1 ++ 0#1 ++ 0b100#3 ++ 0b0011#4 ++ 4#8) =
    .ok (.ackchk 0b0011 0b100) := by decide
theorem test_decode_otpv : decode (0#13 ++ 0#1 ++ 0#1 ++ 0#1 ++ 0#1 ++ 0#3 ++ 0#4 ++ 5#8) = .ok .otpv := by
  decide
theorem test_decode_imgu : decode (0#13 ++ 0#1 ++ 0#1 ++ 0#1 ++ 0#1 ++ 0#3 ++ 0#4 ++ 6#8) =
    .ok (.imgu false) := by decide
theorem test_decode_imgu_wide : decode (0#13 ++ 1#1 ++ 0#1 ++ 0#1 ++ 0#1 ++ 0#3 ++ 0#4 ++ 6#8) =
    .ok (.imgu true) := by decide
theorem test_decode_fdtb : decode (0#13 ++ 0#1 ++ 0#1 ++ 0#1 ++ 0#1 ++ 0#3 ++ 0#4 ++ 7#8) = .ok .fdtb := by
  decide
/-- V-FE-16, V-AK-4 and the examples of R118: the two ways of being illegal. -/
theorem test_decode_refuses : decode 0x00080002 = .error (.mustBeZeroBitSet 2) ∧
    decode 0x00010B04 = .error (.mustBeZeroBitSet 4) ∧ decode 0x00000101 = .error (.mustBeZeroBitSet 1) ∧
    decode 0x00000000 = .error (.unassignedOp 0) ∧ decode 0x00000008 = .error (.unassignedOp 8) := by decide
theorem test_decodeTableWord : decodeTableWord 32 0x00010B02 = some (.fenc 0xB 0 true false) ∧
    decodeTableWord 40 0x100000001 = none := by decide

/-! ### Operations -/

/-- V-CS-3: a byte sum above 0xAA wraps. -/
theorem test_csum_wraps : goesOn (runCsum unit512 (ready 0x00000001 [0xFF]))
    (fun t => t.csumRes == some 0x000000AB && t.status == 0x00000101 && t.outLen == 0) = true := by decide
/-- V-CS-6: a frame with its checksum sums to 0xAA. -/
theorem test_csum_of_a_frame :
    goesOn (runCsum unit512 (ready 0x00000001 [0x14, 0x04, 0x00, 0x01, 0x02, 0x03, 0x8C]))
      (fun t => t.csumRes == some 0x00000000) = true := by decide
/-- V-FE-3. -/
theorem test_fenc_bytes : goesOn (runFenc unit512 1 2 true false (ready 0x00012102 [0x01, 0x02, 0x03]))
    (fun t => output t == [0x14, 0x04, 0x00, 0x01, 0x02, 0x03, 0x8C].map some
      && t.status == 0x00000201) = true := by decide
/-- V-FE-5: padding. -/
theorem test_fenc_pads : goesOn (runFenc unit512 3 1 true true (ready 0x00031302 [0x10, 0x20]))
    (fun t => output t == ([0x32, 0x03, 0x00, 0x10, 0x20, 0x45] ++ List.replicate 58 0x00).map some) = true := by
  decide
/-- V-FD-4: bit 0 of the `cmd` byte is reported, not decoded. -/
theorem test_fdec_reports_rsv0 :
    goesOn (runFdec unit512 (ready 0x00000003 [0x15, 0x04, 0x00, 0x01, 0x02, 0x03, 0x8B]))
      (fun t => output t == [0x01, 0x02, 0x03].map some && t.decHdr == some 0x000400A1
        && t.status == 0x00000301) = true := by decide
/-- V-FD-17: the checksum is checked before the output capacity. -/
theorem test_fdec_priority :
    goesOn (runFdec unit16 (ready 0x00000003 ([0x00, 0x15, 0x00] ++ List.replicate 20 0x00 ++ [0x00])))
      (fun t => t.status == 0x00000302 && t.errCsum == some 0x00000095 && t.outLen == 0
        && t.outMem == []) = true := by decide
/-- V-L1-5, last row: both reasons. -/
theorem test_ackchk_both : goesOn (execAckchk 0xC 1 (ready 0x00001C04 []))
    (fun t => t.status == 0x00000403 && t.ackRsn == some 0x00000003) = true := by decide
/-- V-AK-3: IN_LEN is not checked. -/
theorem test_ackchk_ignores_inLen :
    goesOn (execAckchk 0xB 0 { ready 0x00000B04 [] with inLen := 0xFFFFFFFF })
      (fun t => t.status == 0x00000401 && t.ackRsn == some 0x00000000) = true := by decide
/-- V-L1-8, fourth row: the identity table, a match at byte 25. -/
theorem test_otpv_match :
    goesOn (runOtpv unit512 { ready 0x00000005 ((List.range 25).map (BitVec.ofNat 8) ++ [0xE7]) with
      table := tableOf id }) (fun t => t.otpRes == some 0x00E7E701 && t.status == 0x00000501) = true := by
  decide
/-- V-OT-1: byte 25 is not hashed, and a mismatch is no error; only 25 table entries are written. -/
theorem test_otpv_mismatch :
    goesOn (runOtpv unit512 { ready 0x00000005 (List.replicate 26 0x00) with
      table := cells 0 ((List.range 25).map fun x => BitVec.ofNat 8 (x + 1)) })
      (fun t => t.otpRes == some 0x00E60000 && t.status == 0x00000501) = true := by decide
/-- V-L1-6. -/
theorem test_imgu_truncates :
    goesOn (runImgu unit512 false (ready 0x00000006 [0x12, 0x34, 0x56, 0x78, 0x9A, 0xBC]))
      (fun t => output t == [0x34, 0x81, 0x56, 0xAB].map some && t.status == 0x00000601) = true := by decide
/-- V-L1-6 with `imgu.w`. -/
theorem test_imgu_wide :
    goesOn (runImgu unit512 true (ready 0x00040006 [0x12, 0x34, 0x56, 0x78, 0x9A, 0xBC]))
      (fun t => output t == [0x34, 0x02, 0x81, 0x07, 0x56, 0x0C, 0xAB, 0x09].map some) = true := by decide
/-- V-L1-7. -/
theorem test_fdtb_word : goesOn (runFdtb unit512 (ready 0x00000007 [0x34, 0x12]))
    (fun t => output t == [0x1A, 0x1B].map some && t.status == 0x00000701) = true := by decide
/-- R113: with an odd length the last byte is not read, even never written. -/
theorem test_fdtb_odd :
    goesOn (runFdtb unit512 { ready 0x00000007 [0xFF, 0xFF] with inLen := 3 })
      (fun t => output t == [0xFF, 0xFF].map some) = true := by decide

/-! ### Steps -/

/-- V-AK-4: an illegal descriptor ends ILLEGAL_OPERATION with LAST_OP = OP. -/
theorem test_step_illegal : goesOn (step (hostAt (.writeReg 0 0x00010B04)))
    (fun t => t.status == 0x00000407 && t.desc == 0x00010B04 && t.ackRsn == none) = true := by decide
/-- R134: on an empty input, CSUM gives 0xAA. -/
theorem test_step_runs_csum : goesOn (step (State.reset.withFetchWord 32 0x00000001))
    (fun t => t.csumRes == some 0x000000AA && t.pending == []) = true := by decide
/-- R31, R36, R37: reads after reset, and accesses outside the map. -/
theorem test_step_reads : goesOn (step (hostAt (.readReg 3))) (fun t => t.observed == [.reg 0]) = true ∧
    faultsWith (step (hostAt (.readReg 4))) (.neverWrittenReg 4) = true ∧
    refusedWith (step (hostAt (.readReg 9))) (.unmappedRegister 9) = true ∧
    faultsWith (step (hostAt (.readMem .table 255))) (.neverWrittenByte .table 255) = true ∧
    refusedWith (step (hostAt (.readMem .table 256))) (.indexOutsideMemory .table 256) = true := by decide
/-- R31: a write to a read-only register is ignored. -/
theorem test_step_ignores_write : goesOn (step (hostAt (.writeReg 2 0xFFFFFFFF)))
    (fun t => t == State.reset) = true := by decide
/-- R74. -/
theorem test_host_actions : actionSteps (.wrb .inp 2 [0xAB, 0xCD]) =
      .ok [.writeMem .inp 2 0xAB, .writeMem .inp 3 0xCD] ∧
    actionSteps (.rdb .out 1 2) = .ok [.readMem .out 1, .readMem .out 2] ∧
    actionSteps (.line (.desc 0x00000101)) = actionSteps (.wr 0 0x00000101) := by decide
/-- R73, R76: the text of a line, there and back. -/
theorem test_asm_text : assembleText "imgu.w ; wide".toList = .ok 0x00040006 ∧
    assembleText "fenc 16, 0".toList = .error .outOfRange ∧
    printLine (disassemble 0x00031302) = "fenc 0x3, 0x1, calc, pad".toList ∧
    printLine (disassemble 0x00000101) = ".desc 0x00000101".toList := by decide

/-! ### Inputs that meet the hypotheses of the statements

Where a hypothesis compares with an OPEN parameter (R8) whose value the spec does not bound, the
witness says for which units it is met. -/

theorem inputIs_ready (d : Word) (bs : List Byte)
    (h : readInBytes (ready d bs) 0 (inputLength (ready d bs)) = .ok bs) : InputIs (ready d bs) bs :=
  inputIs_of_readInput h

theorem holds_of_read {s : State} {a : Nat} {bs : List Byte} (h : readInBytes s a bs.length = .ok bs) :
    s.inMem.Holds a bs :=
  ((readInBytes_eq_ok_iff ..).1 h).2

theorem inCap_ge : 26 ≤ Config.params.inCap := by simp [Config.params]

theorem outCap_ge : 4 ≤ Config.params.outCap := by simp [Config.params]

theorem wit_ResetLeavesTheStatedState : (4 ≤ 4 ∧ 4 ≤ 8) ∧ (4 ≤ 8 ∧ 8 ≤ 8) ∧
    ∀ m, 0 < capacity Config.params m := by
  refine ⟨by decide, by decide, fun m => ?_⟩
  cases m <;> simp [capacity, Config.params, tableSize]

theorem wit_ResetStepRestoresTheUnit : (hostAt .reset).pending = .reset :: [] := rfl

theorem wit_StepRunsTheDecodedOperation :
    (hostAt (.writeReg 0 0x00000007)).pending = .writeReg 0 0x00000007 :: [] ∧
    decode 0x00000007 = .ok .fdtb ∧ decodeTableWord 32 0x00000007 = some .fdtb := by decide

theorem wit_IllegalDescriptorsEndAtOnce :
    (hostAt (.writeReg 0 0x00000108)).pending = .writeReg 0 0x00000108 :: [] ∧
    decode 0x00000108 = .error (.unassignedOp 8) ∧
    0x00008002 ∈ ([0x00000000, 0x00000008, 0x00008002, 0x00000101] : List Word) := by decide

/-- Each clause, the register numbers at both ends of their range. -/
theorem wit_RegistersAnswerTheHost :
    (hostAt (.writeReg 2 1)).pending = .writeReg 2 1 :: [] ∧
    (hostAt (.writeReg 8 1)).pending = .writeReg 8 1 :: [] ∧
    goesOn (step (hostAt (.writeReg 0 0xFFFFFFFF))) (fun t => t.desc == 0xFFFFFFFF) = true ∧
    (hostAt (.writeReg 1 0xFFFFFFFF)).pending = .writeReg 1 0xFFFFFFFF :: [] ∧
    registerValue (hostAt (.readReg 0)) 0 = some 0 ∧ registerValue (hostAt (.readReg 3)) 3 = some 0 ∧
    registerValue { hostAt (.readReg 8) with otpRes := some 0x00FFFF01 } 8 = some 0x00FFFF01 ∧
    registerValue (hostAt (.readReg 4)) 4 = none ∧ registerValue (hostAt (.readReg 8)) 8 = none := by decide

/-- The reserved fields' premise holds after reset. -/
theorem wit_RegistersAnswerTheHost_reserved : ReservedBitsZero (hostAt (.readReg 2)) := by
  intro r w h
  match r, h with
  | 0, _ | 1, _ | 3, _ => trivial
  | 2, h => cases h; exact rfl
  | 4, h | 5, h | 6, h | 7, h | 8, h | _ + 9, h => cases h

theorem wit_AccessesOutsideTheMapAreRefused : 9 ≤ 9 ∧
    (hostAt (.readReg 9)).pending = .readReg 9 :: [] ∧
    (hostAt (.readMem .inp Config.params.inCap)).pending = .readMem .inp Config.params.inCap :: [] ∧
    (hostAt (.writeMem .out Config.params.outCap 0)).pending
      = .writeMem .out Config.params.outCap 0 :: [] ∧
    (MemId.table = .table → 256 ≤ 256) :=
  ⟨by decide, rfl, rfl, rfl, fun _ => by decide⟩

/-- A fault of an operation, on the last byte that FDEC's shortest frame needs, and an operation that
ends with output, in every unit. -/
theorem wit_AccessesOutsideTheMapAreRefused_operation :
    faultsWith (exec .fdec { ready 0x00000003 [0xB0, 0x01, 0x00] with inLen := 4 })
      (.neverWrittenByte .inp 3) = true ∧
    goesOn (exec (.fenc 0xB 0 true false) (ready 0x00010B02 [])) (fun t => t.outLen == 4) = true := by decide

theorem wit_MemoryReadsSeeTheLatestWrite : 25 < capacity Config.params .inp ∧
    255 < capacity Config.params .table ∧
    (hostAt (.writeMem .table 255 7)).pending = .writeMem .table 255 7 :: [] ∧
    ({ hostAt (.readMem .inp 25) with inMem := [(25, 7)] } : State).inMem.read? 25 = some 7 ∧
    (hostAt (.readMem .inp 25)).inMem.read? 25 = none :=
  ⟨by simp [capacity, Config.params], by decide, rfl, rfl, rfl⟩

theorem wit_ReadsHaveNoSideEffects :
    goesOn (step (hostAt (.readReg 2))) (fun _ => true) = true ∧
    goesOn (step { hostAt (.readMem .table 0) with table := [(0, 1)] }) (fun _ => true) = true ∧
    goesOn (exec .fdec (ready 0x00000003 [])) (fun _ => true) = true ∧
    goesOn (step (hostAt (.writeReg 1 5))) (fun t => t.inLen == 5) = true ∧
    HostStep.writeReg 1 5 ≠ .reset ∧ ∀ d, HostStep.writeReg 1 5 ≠ .writeReg 0 d :=
  ⟨by decide, by decide, by decide, by decide, by decide, fun d => by simp⟩

theorem wit_IdleUnitHoldsItsState : State.reset.pending = [] := rfl

theorem wit_EncodeOfDecodeIsTheDescriptor : decode 0x00037F02 = .ok (.fenc 0xF 7 true true) := by decide

/-- Each row of the table is selected by some descriptor, and some descriptor by no row. -/
theorem wit_DecodeFollowsTheTable :
    0x00000001 &&& 0xFFFFFFFF = 0x00000001#32 ∧ 0x00037F02 &&& 0xFFFC80FF = 0x00000002#32 ∧
    0x00000003 &&& 0xFFFFFFFF = 0x00000003#32 ∧ 0x00007F04 &&& 0xFFFF80FF = 0x00000004#32 ∧
    0x00000005 &&& 0xFFFFFFFF = 0x00000005#32 ∧ 0x00040006 &&& 0xFFFBFFFF = 0x00000006#32 ∧
    0x00000007 &&& 0xFFFFFFFF = 0x00000007#32 ∧ ∀ r ∈ descRows, 0x00000008 &&& r.mask ≠ r.pattern := by
  refine ⟨by decide, by decide, by decide, by decide, by decide, by decide, by decide, ?_⟩
  intro r hr
  simp only [descRows, List.mem_cons, List.not_mem_nil, or_false] at hr
  rcases hr with rfl | rfl | rfl | rfl | rfl | rfl | rfl <;> decide

theorem wit_DisassemblyAssemblesBack : decode 0x00007F04 = .ok (.ackchk 0xF 7) ∧
    decode 0x00010B04 = .error (.mustBeZeroBitSet 4) := by decide

theorem wit_ChecksumHasTheListedProperties :
    byteSum [0x80, 0x80] % 256 = byteSum [] % 256 ∧ [0x01, 0x02].Perm [0x02, (0x01 : Byte)] ∧
    (0x01 : Byte) ≠ 0x02 := by
  refine ⟨by decide, List.Perm.swap _ _ _, by decide⟩

theorem wit_EncodeFrameGivesTheBytes : (List.replicate 65534 (0x00 : Byte)).length ≤ 65534 :=
  Nat.le_of_eq List.length_replicate

theorem wit_PaddingIsTheLeastMultiple : Config.params.blockSize ∣ Config.params.blockSize * 4 ∧
    4 + 0 ≤ Config.params.blockSize * 4 ∧
    Config.params.blockSize ∣ 4 + (Config.params.blockSize * 4 - 4) ∧
    ([0x01] : List Byte).length ≤ 2 := by
  have h : 4 ≤ Config.params.blockSize * 4 := by simp [Config.params]
  refine ⟨Dvd.intro _ rfl, by omega, ?_, by decide⟩
  rw [Nat.add_sub_cancel' h]
  exact Dvd.intro _ rfl

/-- V-FE-9: a message whose checksum is the sentinel. -/
theorem wit_ComputedSentinelIsNotSpecial : ([0x00] : List Byte).length ≤ 65534 ∧
    byteSum (covered 2 0 [0x00]) % 256 = 0x22 := by decide

theorem wit_OtpHashHasTheListedProperties : 26 ≤ (List.replicate 26 (0x00 : Byte)).length ∧ 26 ≤ 26 := by
  decide

theorem wit_CsumFollowsItsRule : StartedBy .csum (ready 0x00000001 [0xAB]) ∧
    inputLength (ready 0x00000001 [0xAB]) ≤ Config.params.inCap ∧
    InputIs (ready 0x00000001 [0xAB]) [0xAB] :=
  ⟨rfl, Nat.le_trans (by decide) inCap_ge, inputIs_ready _ _ rfl⟩

theorem wit_CsumFollowsItsRule_capacity (h : Config.params.inCap < 4294967295) :
    StartedBy .csum { State.reset with desc := 0x00000001, inLen := 0xFFFFFFFF } ∧
    Config.params.inCap < inputLength { State.reset with desc := 0x00000001, inLen := 0xFFFFFFFF } :=
  ⟨rfl, h⟩

/-- Two bytes counted, one of them written. -/
theorem wit_CsumFollowsItsRule_fault :
    StartedBy .csum { ready 0x00000001 [0xAB] with inLen := 2 } ∧
    inputLength { ready 0x00000001 [0xAB] with inLen := 2 } ≤ Config.params.inCap ∧
    1 < inputLength { ready 0x00000001 [0xAB] with inLen := 2 } ∧
    ({ ready 0x00000001 [0xAB] with inLen := 2 } : State).inMem.read? 1 = none :=
  ⟨rfl, Nat.le_trans (by decide) inCap_ge, by decide, rfl⟩

/-- The smallest frame fits every OUT. -/
theorem wit_FencFollowsItsRule : StartedBy (.fenc 0xB 0 true false) (ready 0x00010B02 []) ∧
    inputLength (ready 0x00010B02 []) ≤ Config.params.inCap ∧ inputLength (ready 0x00010B02 []) ≤ 65534 ∧
    InputIs (ready 0x00010B02 []) [] ∧
    encodedLength (inputLength (ready 0x00010B02 [])) false ≤ Config.params.outCap ∧
    encodedLength (inputLength (ready 0x00010B02 [])) false < 4294967296 :=
  ⟨rfl, Nat.zero_le _, by decide, inputIs_ready _ _ rfl, outCap_ge, by decide⟩

theorem wit_FencFollowsItsRule_capacity (h : Config.params.inCap < 4294967295) :
    StartedBy (.fenc 0xB 0 true false) { State.reset with desc := 0x00010B02, inLen := 0xFFFFFFFF } ∧
    Config.params.inCap < inputLength { State.reset with desc := 0x00010B02, inLen := 0xFFFFFFFF } :=
  ⟨rfl, h⟩

/-- ENCODE_RANGE, at its first length, in a unit whose IN holds it (V-FE-14). -/
theorem wit_FencFollowsItsRule_range (h : 65535 ≤ Config.params.inCap) :
    StartedBy (.fenc 0 0 true false) { State.reset with desc := 0x00010002, inLen := 65535 } ∧
    inputLength { State.reset with desc := 0x00010002, inLen := 65535 } ≤ Config.params.inCap ∧
    65534 < inputLength { State.reset with desc := 0x00010002, inLen := 65535 } :=
  ⟨rfl, h, by decide⟩

/-- A frame of five bytes does not fit the smallest OUT. -/
theorem wit_FencFollowsItsRule_output (h : Config.params.outCap = 4) :
    StartedBy (.fenc 0xB 0 true false) (ready 0x00010B02 [0x00]) ∧
    inputLength (ready 0x00010B02 [0x00]) ≤ Config.params.inCap ∧ inputLength (ready 0x00010B02 [0x00]) ≤ 65534 ∧
    InputIs (ready 0x00010B02 [0x00]) [0x00] ∧
    Config.params.outCap < encodedLength (inputLength (ready 0x00010B02 [0x00])) false :=
  ⟨rfl, Nat.le_trans (by decide) inCap_ge, by decide, inputIs_ready _ _ rfl, by rw [h]; decide⟩

theorem wit_FencFollowsItsRule_fault (h : 5 ≤ Config.params.outCap) :
    StartedBy (.fenc 0xB 0 true false) { ready 0x00010B02 [] with inLen := 1 } ∧
    inputLength { ready 0x00010B02 [] with inLen := 1 } ≤ Config.params.inCap ∧
    inputLength { ready 0x00010B02 [] with inLen := 1 } ≤ 65534 ∧
    0 < inputLength { ready 0x00010B02 [] with inLen := 1 } ∧
    encodedLength (inputLength { ready 0x00010B02 [] with inLen := 1 }) false ≤ Config.params.outCap ∧
    ({ ready 0x00010B02 [] with inLen := 1 } : State).inMem.read? 0 = none :=
  ⟨rfl, Nat.le_trans (by decide) inCap_ge, by decide, by decide, h, rfl⟩

/-- The premises that every clause about a complete frame shares. -/
def CompleteFrame (s : State) (b0 b1 b2 : Byte) : Prop :=
  StartedBy .fdec s ∧ inputLength s ≤ Config.params.inCap ∧ 3 ≤ inputLength s ∧
  s.inMem.Holds 0 [b0, b1, b2] ∧ half b1 b2 ≠ 0 ∧ 3 + half b1 b2 ≤ inputLength s

theorem completeFrame_of {s : State} {b0 b1 b2 : Byte} (hs : s.desc = 0x00000003)
    (hn : inputLength s ≤ 26) (h3 : 3 ≤ inputLength s) (hr : readInBytes s 0 3 = .ok [b0, b1, b2])
    (hd : half b1 b2 ≠ 0) (hl : 3 + half b1 b2 ≤ inputLength s) : CompleteFrame s b0 b1 b2 :=
  ⟨by rw [StartedBy, hs]; rfl, Nat.le_trans hn inCap_ge, h3, holds_of_read hr, hd, hl⟩

/-- V-FD-2: OK, with a payload of three bytes. -/
theorem wit_FdecFollowsItsRule :
    CompleteFrame (ready 0x00000003 [0x14, 0x04, 0x00, 0x01, 0x02, 0x03, 0x8C]) 0x14 0x04 0x00 ∧
    (ready 0x00000003 [0x14, 0x04, 0x00, 0x01, 0x02, 0x03, 0x8C]).inMem.read? (2 + half 0x04 0x00)
      = some 0x8C ∧ (0x8C : Byte) ≠ 0x88 ∧
    ([0x01, 0x02, 0x03] : List Byte).length = half 0x04 0x00 - 1 ∧
    (ready 0x00000003 [0x14, 0x04, 0x00, 0x01, 0x02, 0x03, 0x8C]).inMem.Holds 3 [0x01, 0x02, 0x03] ∧
    checksum ([0x14, 0x04, 0x00] ++ [0x01, 0x02, 0x03]) = 0x8C ∧
    half 0x04 0x00 - 1 ≤ Config.params.outCap :=
  ⟨completeFrame_of rfl (by decide) (by decide) rfl (by decide) (by decide), by decide, by decide,
    by decide, holds_of_read rfl, by decide, Nat.le_trans (by decide) outCap_ge⟩

/-- V-FD-9: the same frame with a corrupted byte. -/
theorem wit_FdecFollowsItsRule_mismatch :
    CompleteFrame (ready 0x00000003 [0x14, 0x04, 0x00, 0x00, 0x02, 0x03, 0x8C]) 0x14 0x04 0x00 ∧
    (ready 0x00000003 [0x14, 0x04, 0x00, 0x00, 0x02, 0x03, 0x8C]).inMem.read? (2 + half 0x04 0x00)
      = some 0x8C ∧ (0x8C : Byte) ≠ 0x88 ∧
    ([0x00, 0x02, 0x03] : List Byte).length = half 0x04 0x00 - 1 ∧
    (ready 0x00000003 [0x14, 0x04, 0x00, 0x00, 0x02, 0x03, 0x8C]).inMem.Holds 3 [0x00, 0x02, 0x03] ∧
    checksum ([0x14, 0x04, 0x00] ++ [0x00, 0x02, 0x03]) ≠ 0x8C :=
  ⟨completeFrame_of rfl (by decide) (by decide) rfl (by decide) (by decide), by decide, by decide,
    by decide, holds_of_read rfl, by decide⟩

/-- V-FD-7: a frame with the sentinel. -/
theorem wit_FdecFollowsItsRule_sentinel :
    CompleteFrame (ready 0x00000003 [0x14, 0x04, 0x00, 0xFF, 0xFF, 0xFF, 0x88]) 0x14 0x04 0x00 ∧
    (ready 0x00000003 [0x14, 0x04, 0x00, 0xFF, 0xFF, 0xFF, 0x88]).inMem.read? (2 + half 0x04 0x00)
      = some 0x88 ∧ half 0x04 0x00 - 1 ≤ Config.params.outCap ∧
    ([0xFF, 0xFF, 0xFF] : List Byte).length = half 0x04 0x00 - 1 ∧
    (ready 0x00000003 [0x14, 0x04, 0x00, 0xFF, 0xFF, 0xFF, 0x88]).inMem.Holds 3 [0xFF, 0xFF, 0xFF] :=
  ⟨completeFrame_of rfl (by decide) (by decide) rfl (by decide) (by decide), by decide,
    Nat.le_trans (by decide) outCap_ge, by decide, holds_of_read rfl⟩

/-- The same frame, as R91 takes it. -/
theorem wit_SentinelBypassesTheCheck :
    StartedBy .fdec (ready 0x00000003 [0x14, 0x04, 0x00, 0xFF, 0xFF, 0xFF, 0x88]) ∧
    inputLength (ready 0x00000003 [0x14, 0x04, 0x00, 0xFF, 0xFF, 0xFF, 0x88]) ≤ Config.params.inCap ∧
    1 ≤ half 0x04 0x00 ∧
    3 + half 0x04 0x00 ≤ inputLength (ready 0x00000003 [0x14, 0x04, 0x00, 0xFF, 0xFF, 0xFF, 0x88]) ∧
    half 0x04 0x00 - 1 ≤ Config.params.outCap ∧ ([0xFF, 0xFF, 0xFF] : List Byte).length = half 0x04 0x00 - 1 ∧
    (ready 0x00000003 [0x14, 0x04, 0x00, 0xFF, 0xFF, 0xFF, 0x88]).inMem.Holds 0
      ([0x14, 0x04, 0x00] ++ [0xFF, 0xFF, 0xFF] ++ [0x88]) :=
  ⟨rfl, Nat.le_trans (by decide) inCap_ge, by decide, by decide, Nat.le_trans (by decide) outCap_ge,
    by decide, holds_of_read rfl⟩

/-- TRUNCATED_FRAME for two bytes, the last length without a header. -/
theorem wit_FdecFollowsItsRule_noHeader : StartedBy .fdec (ready 0x00000003 [0xB0, 0x00]) ∧
    inputLength (ready 0x00000003 [0xB0, 0x00]) ≤ Config.params.inCap ∧
    inputLength (ready 0x00000003 [0xB0, 0x00]) < 3 :=
  ⟨rfl, Nat.le_trans (by decide) inCap_ge, by decide⟩

/-- TRUNCATED_FRAME for declared = 0 (V-FD-14), and for one byte less than declared. -/
theorem wit_FdecFollowsItsRule_truncated :
    StartedBy .fdec (ready 0x00000003 [0xB0, 0x00, 0x00]) ∧
    inputLength (ready 0x00000003 [0xB0, 0x00, 0x00]) ≤ Config.params.inCap ∧
    3 ≤ inputLength (ready 0x00000003 [0xB0, 0x00, 0x00]) ∧
    (ready 0x00000003 [0xB0, 0x00, 0x00]).inMem.Holds 0 [0xB0, 0x00, 0x00] ∧ half 0x00 0x00 = 0 ∧
    (ready 0x00000003 [0xB0, 0x01, 0x00]).inMem.Holds 0 [0xB0, 0x01, 0x00] ∧ half 0x01 0x00 ≠ 0 ∧
    inputLength (ready 0x00000003 [0xB0, 0x01, 0x00]) < 3 + half 0x01 0x00 :=
  ⟨rfl, Nat.le_trans (by decide) inCap_ge, by decide, holds_of_read rfl, by decide, holds_of_read rfl,
    by decide, by decide⟩

theorem wit_FdecFollowsItsRule_capacity (h : Config.params.inCap < 4294967295) :
    StartedBy .fdec { State.reset with desc := 0x00000003, inLen := 0xFFFFFFFF } ∧
    Config.params.inCap < inputLength { State.reset with desc := 0x00000003, inLen := 0xFFFFFFFF } :=
  ⟨rfl, h⟩

/-- A payload of five bytes does not fit the smallest OUT, with the sentinel. -/
theorem wit_FdecFollowsItsRule_output (h : Config.params.outCap = 4) :
    CompleteFrame (ready 0x00000003 [0x00, 0x06, 0x00, 0x00, 0x00, 0x00, 0x00, 0x00, 0x88]) 0x00 0x06 0x00 ∧
    (ready 0x00000003 [0x00, 0x06, 0x00, 0x00, 0x00, 0x00, 0x00, 0x00, 0x88]).inMem.read?
      (2 + half 0x06 0x00) = some 0x88 ∧ Config.params.outCap < half 0x06 0x00 - 1 :=
  ⟨completeFrame_of rfl (by decide) (by decide) rfl (by decide) (by decide), by decide, by rw [h]; decide⟩

/-- The same with its checksum. -/
theorem wit_FdecFollowsItsRule_output_checked (h : Config.params.outCap = 4) :
    CompleteFrame (ready 0x00000003 [0x00, 0x06, 0x00, 0x00, 0x00, 0x00, 0x00, 0x00, 0xA4]) 0x00 0x06 0x00 ∧
    (ready 0x00000003 [0x00, 0x06, 0x00, 0x00, 0x00, 0x00, 0x00, 0x00, 0xA4]).inMem.read?
      (2 + half 0x06 0x00) = some 0xA4 ∧ (0xA4 : Byte) ≠ 0x88 ∧
    (ready 0x00000003 [0x00, 0x06, 0x00, 0x00, 0x00, 0x00, 0x00, 0x00, 0xA4]).inMem.Holds 3
      [0x00, 0x00, 0x00, 0x00, 0x00] ∧
    checksum ([0x00, 0x06, 0x00] ++ [0x00, 0x00, 0x00, 0x00, 0x00]) = 0xA4 ∧
    Config.params.outCap < half 0x06 0x00 - 1 :=
  ⟨completeFrame_of rfl (by decide) (by decide) rfl (by decide) (by decide), by decide, by decide,
    holds_of_read rfl, by decide, by rw [h]; decide⟩

/-- A header byte that was never written. -/
theorem wit_FdecFollowsItsRule_fault_header :
    StartedBy .fdec { ready 0x00000003 [0x14, 0x02] with inLen := 5 } ∧
    inputLength { ready 0x00000003 [0x14, 0x02] with inLen := 5 } ≤ Config.params.inCap ∧
    3 ≤ inputLength { ready 0x00000003 [0x14, 0x02] with inLen := 5 } ∧
    ({ ready 0x00000003 [0x14, 0x02] with inLen := 5 } : State).inMem.read? 2 = none :=
  ⟨rfl, Nat.le_trans (by decide) inCap_ge, by decide, rfl⟩

/-- A checksum byte that was never written. -/
theorem wit_FdecFollowsItsRule_fault_checksum :
    CompleteFrame { ready 0x00000003 [0x14, 0x02, 0x00] with inLen := 5 } 0x14 0x02 0x00 ∧
    ({ ready 0x00000003 [0x14, 0x02, 0x00] with inLen := 5 } : State).inMem.read? (2 + half 0x02 0x00)
      = none :=
  ⟨completeFrame_of rfl (by decide) (by decide) rfl (by decide) (by decide), by decide⟩

/-- A payload byte that was never written, with the sentinel and without. -/
theorem wit_FdecFollowsItsRule_fault_payload :
    CompleteFrame { ready 0x00000003 [] with inLen := 5, inMem := [(0, 0x14), (1, 2), (2, 0), (4, 0x88)] }
      0x14 0x02 0x00 ∧
    ({ ready 0x00000003 [] with inLen := 5, inMem := [(0, 0x14), (1, 2), (2, 0), (4, 0x88)] } :
      State).inMem.read? (2 + half 0x02 0x00) = some 0x88 ∧
    CompleteFrame { ready 0x00000003 [] with inLen := 5, inMem := [(0, 0x14), (1, 2), (2, 0), (4, 0x89)] }
      0x14 0x02 0x00 ∧
    ({ ready 0x00000003 [] with inLen := 5, inMem := [(0, 0x14), (1, 2), (2, 0), (4, 0x89)] } :
      State).inMem.read? (2 + half 0x02 0x00) = some 0x89 ∧
    half 0x02 0x00 - 1 ≤ Config.params.outCap ∧ 0 < half 0x02 0x00 - 1 ∧
    ({ ready 0x00000003 [] with inLen := 5, inMem := [(0, 0x14), (1, 2), (2, 0), (4, 0x88)] } :
      State).inMem.read? (3 + 0) = none ∧
    ({ ready 0x00000003 [] with inLen := 5, inMem := [(0, 0x14), (1, 2), (2, 0), (4, 0x89)] } :
      State).inMem.read? (3 + 0) = none :=
  ⟨completeFrame_of rfl (by decide) (by decide) rfl (by decide) (by decide), by decide,
    completeFrame_of rfl (by decide) (by decide) rfl (by decide) (by decide), by decide,
    Nat.le_trans (by decide) outCap_ge, by decide, by decide, by decide⟩

theorem wit_AckchkFollowsItsRule : StartedBy (.ackchk 0xB 0) (ready 0x00000B04 []) ∧
    (hostAt (.writeReg 0 (encode (.ackchk 0xC 1)))).pending = .writeReg 0 (encode (.ackchk 0xC 1)) :: [] :=
  ⟨rfl, rfl⟩

/-- 26 zero bytes under the identity table, whose first entry alone is read. -/
theorem wit_OtpvFollowsItsRule :
    StartedBy .otpv { ready 0x00000005 (List.replicate 26 0x00) with table := [(0, 0)] } ∧
    inputLength { ready 0x00000005 (List.replicate 26 0x00) with table := [(0, 0)] } ≤
      Config.params.inCap ∧
    26 ≤ inputLength { ready 0x00000005 (List.replicate 26 0x00) with table := [(0, 0)] } ∧
    InputIs { ready 0x00000005 (List.replicate 26 0x00) with table := [(0, 0)] } (List.replicate 26 0x00) ∧
    (∀ x b, Memory.read? [(0, 0)] (BitVec.toNat (w := 8) x) = some b → id x = b) ∧
    (∀ i, i < 26 → i ≠ 25 →
      (Memory.read? [(0, 0)] (walkIndex id (List.replicate 26 0x00) i)).isSome) := by
  refine ⟨rfl, Nat.le_trans (by decide) inCap_ge, by decide, inputIs_of_readInput rfl, by decide, by decide⟩

theorem wit_OtpvFollowsItsRule_short : StartedBy .otpv (ready 0x00000005 (List.replicate 25 0x00)) ∧
    inputLength (ready 0x00000005 (List.replicate 25 0x00)) ≤ Config.params.inCap ∧
    inputLength (ready 0x00000005 (List.replicate 25 0x00)) < 26 :=
  ⟨rfl, Nat.le_trans (by decide) inCap_ge, by decide⟩

theorem wit_OtpvFollowsItsRule_capacity (h : Config.params.inCap < 4294967295) :
    StartedBy .otpv { State.reset with desc := 0x00000005, inLen := 0xFFFFFFFF } ∧
    Config.params.inCap < inputLength { State.reset with desc := 0x00000005, inLen := 0xFFFFFFFF } :=
  ⟨rfl, h⟩

/-- A byte of IN, and the first table entry, that were never written. -/
theorem wit_OtpvFollowsItsRule_fault :
    StartedBy .otpv { ready 0x00000005 [] with inLen := 26 } ∧
    inputLength { ready 0x00000005 [] with inLen := 26 } ≤ Config.params.inCap ∧
    26 ≤ inputLength { ready 0x00000005 [] with inLen := 26 } ∧
    25 < inputLength { ready 0x00000005 [] with inLen := 26 } ∧
    ({ ready 0x00000005 [] with inLen := 26 } : State).inMem.read? 25 = none ∧
    StartedBy .otpv (ready 0x00000005 (List.replicate 26 0x00)) ∧
    InputIs (ready 0x00000005 (List.replicate 26 0x00)) (List.replicate 26 0x00) ∧
    (ready 0x00000005 (List.replicate 26 0x00)).table.read?
      (walkIndex id (List.replicate 26 0x00) 0) = none :=
  ⟨rfl, Nat.le_trans (by decide) inCap_ge, by decide, by decide, by decide, rfl, inputIs_ready _ _ rfl,
    by decide⟩

/-- One chunk fits every OUT with WIDE = 0, and no chunk with WIDE = 1. -/
theorem wit_ImguFollowsItsRule :
    StartedBy (.imgu false) (ready 0x00000006 [0x12, 0x34, 0x56, 0x78, 0x9A, 0xBC]) ∧
    inputLength (ready 0x00000006 [0x12, 0x34, 0x56, 0x78, 0x9A, 0xBC]) ≤ Config.params.inCap ∧
    inputLength (ready 0x00000006 [0x12, 0x34, 0x56, 0x78, 0x9A, 0xBC]) % 6 = 0 ∧
    inputLength (ready 0x00000006 [0x12, 0x34, 0x56, 0x78, 0x9A, 0xBC]) / 6 * 4 * 1 ≤ Config.params.outCap ∧
    InputIs (ready 0x00000006 [0x12, 0x34, 0x56, 0x78, 0x9A, 0xBC]) [0x12, 0x34, 0x56, 0x78, 0x9A, 0xBC] ∧
    StartedBy (.imgu true) (ready 0x00040006 []) ∧ InputIs (ready 0x00040006 []) [] ∧
    inputLength (ready 0x00040006 []) / 6 * 4 * 2 ≤ Config.params.outCap ∧
    inputLength (ready 0x00000006 [0x12, 0x34, 0x56, 0x78, 0x9A, 0xBC]) / 6 * 4 * 1 < 4294967296 :=
  ⟨rfl, Nat.le_trans (by decide) inCap_ge, by decide, outCap_ge, inputIs_ready _ _ rfl, rfl,
    inputIs_ready _ _ rfl, Nat.zero_le _, by decide⟩

theorem wit_ImguFollowsItsRule_length : StartedBy (.imgu true) (ready 0x00040006 [0, 0, 0, 0, 0]) ∧
    inputLength (ready 0x00040006 [0, 0, 0, 0, 0]) ≤ Config.params.inCap ∧
    inputLength (ready 0x00040006 [0, 0, 0, 0, 0]) % 6 ≠ 0 :=
  ⟨rfl, Nat.le_trans (by decide) inCap_ge, by decide⟩

theorem wit_ImguFollowsItsRule_capacity (h : Config.params.inCap < 4294967295) :
    StartedBy (.imgu true) { State.reset with desc := 0x00040006, inLen := 0xFFFFFFFF } ∧
    Config.params.inCap < inputLength { State.reset with desc := 0x00040006, inLen := 0xFFFFFFFF } :=
  ⟨rfl, h⟩

theorem wit_ImguFollowsItsRule_output (h : Config.params.outCap < 8) :
    StartedBy (.imgu true) (ready 0x00040006 [0, 0, 0, 0, 0, 0]) ∧
    inputLength (ready 0x00040006 [0, 0, 0, 0, 0, 0]) ≤ Config.params.inCap ∧
    inputLength (ready 0x00040006 [0, 0, 0, 0, 0, 0]) % 6 = 0 ∧
    Config.params.outCap < inputLength (ready 0x00040006 [0, 0, 0, 0, 0, 0]) / 6 * 4 * 2 :=
  ⟨rfl, Nat.le_trans (by decide) inCap_ge, by decide, h⟩

theorem wit_ImguFollowsItsRule_fault :
    StartedBy (.imgu false) { ready 0x00000006 [0, 0, 0, 0, 0] with inLen := 6 } ∧
    inputLength { ready 0x00000006 [0, 0, 0, 0, 0] with inLen := 6 } % 6 = 0 ∧
    inputLength { ready 0x00000006 [0, 0, 0, 0, 0] with inLen := 6 } ≤ Config.params.inCap ∧
    inputLength { ready 0x00000006 [0, 0, 0, 0, 0] with inLen := 6 } / 6 * 4 * 1 ≤ Config.params.outCap ∧
    5 < inputLength { ready 0x00000006 [0, 0, 0, 0, 0] with inLen := 6 } ∧
    ({ ready 0x00000006 [0, 0, 0, 0, 0] with inLen := 6 } : State).inMem.read? 5 = none :=
  ⟨rfl, by decide, Nat.le_trans (by decide) inCap_ge, outCap_ge, by decide, rfl⟩

/-- Two words and a byte left over. -/
theorem wit_FdtbFollowsItsRule : StartedBy .fdtb (ready 0x00000007 [0x34, 0x12, 0xFE, 0xFF, 0x00]) ∧
    inputLength (ready 0x00000007 [0x34, 0x12, 0xFE, 0xFF, 0x00]) ≤ Config.params.inCap ∧
    2 * (inputLength (ready 0x00000007 [0x34, 0x12, 0xFE, 0xFF, 0x00]) / 2) ≤ Config.params.outCap ∧
    ([0x34, 0x12, 0xFE, 0xFF] : List Byte).length =
      2 * (inputLength (ready 0x00000007 [0x34, 0x12, 0xFE, 0xFF, 0x00]) / 2) ∧
    (ready 0x00000007 [0x34, 0x12, 0xFE, 0xFF, 0x00]).inMem.Holds 0 [0x34, 0x12, 0xFE, 0xFF] :=
  ⟨rfl, Nat.le_trans (by decide) inCap_ge, outCap_ge, by decide, holds_of_read rfl⟩

theorem wit_FdtbFollowsItsRule_capacity (h : Config.params.inCap < 4294967295) :
    StartedBy .fdtb { State.reset with desc := 0x00000007, inLen := 0xFFFFFFFF } ∧
    Config.params.inCap < inputLength { State.reset with desc := 0x00000007, inLen := 0xFFFFFFFF } :=
  ⟨rfl, h⟩

theorem wit_FdtbFollowsItsRule_output (h : Config.params.outCap < 6) :
    StartedBy .fdtb (ready 0x00000007 [0, 0, 0, 0, 0, 0]) ∧
    inputLength (ready 0x00000007 [0, 0, 0, 0, 0, 0]) ≤ Config.params.inCap ∧
    Config.params.outCap < 2 * (inputLength (ready 0x00000007 [0, 0, 0, 0, 0, 0]) / 2) :=
  ⟨rfl, Nat.le_trans (by decide) inCap_ge, h⟩

theorem wit_FdtbFollowsItsRule_fault :
    StartedBy .fdtb { ready 0x00000007 [0x34] with inLen := 2 } ∧
    inputLength { ready 0x00000007 [0x34] with inLen := 2 } ≤ Config.params.inCap ∧
    2 * (inputLength { ready 0x00000007 [0x34] with inLen := 2 } / 2) ≤ Config.params.outCap ∧
    1 < 2 * (inputLength { ready 0x00000007 [0x34] with inLen := 2 } / 2) ∧
    ({ ready 0x00000007 [0x34] with inLen := 2 } : State).inMem.read? 1 = none :=
  ⟨rfl, Nat.le_trans (by decide) inCap_ge, Nat.le_trans (by decide) outCap_ge, by decide, rfl⟩

theorem wit_CommonChecksComeFirst :
    decode 0x00000101 = .error (.mustBeZeroBitSet 1) ∧ decode 0x00001C04 = .ok (.ackchk 0xC 1) ∧
    decode 0x00000001 = .ok .csum ∧ ∀ cat cmd, Instr.csum ≠ .ackchk cat cmd :=
  ⟨by decide, by decide, by decide, fun _ _ => by simp⟩

theorem wit_CommonChecksComeFirst_capacity (h : Config.params.inCap < 4294967295) :
    ({ hostAt (.writeReg 0 0x00000001) with inLen := 0xFFFFFFFF } : State).pending
      = .writeReg 0 0x00000001 :: [] ∧
    Config.params.inCap < inputLength { hostAt (.writeReg 0 0x00000001) with inLen := 0xFFFFFFFF } :=
  ⟨rfl, h⟩

theorem wit_OperationsWriteOnlyTheirRegisters :
    goesOn (exec .csum (ready 0x00000001 [])) (fun t => t.csumRes == some 0x000000AA) = true ∧
    goesOn (exec .fdec (ready 0x00000003 [0xB0, 0x01, 0x00, 0xF9])) (fun t => t.decHdr == some 0x0001000B)
      = true := by decide

/-- An error with a detail register, one without, and an illegal descriptor. -/
theorem wit_ErrorsArePrecise :
    goesOn (step { ready 0 [0xB1, 0x01, 0x00, 0xF9] with pending := [.writeReg 0 0x00000003] })
      (fun t => statusCodeField t.status == 0x02 && t.errCsum == some 0x0000F9F8) = true ∧
    goesOn (step (hostAt (.writeReg 0 0x00000005))) (fun t => statusCodeField t.status == 0x06) = true ∧
    goesOn (step (hostAt (.writeReg 0 0x00000000))) (fun t => statusCodeField t.status == 0x07) = true := by
  decide

theorem wit_EveryOperationEndsWithOneStatus :
    goesOn (step (hostAt (.readReg 2))) (fun t => t.status == 0) = true ∧
    goesOn (step (hostAt (.writeReg 0 0x00000003))) (fun t => t.status == 0x00000304) = true ∧
    goesOn (step (hostAt (.writeReg 0 0x000000FF))) (fun t => t.status == 0x0000FF07) = true := by decide

/-- An operation whose output is counted, one that has none, an error, and an illegal descriptor. -/
theorem wit_OutLenCountsTheOutput :
    goesOn (step (hostAt (.writeReg 0 0x00010B02))) (fun t => t.outLen == 4 &&
      bytesWritten (.fenc 0xB 0 true false) { hostAt (.writeReg 0 0x00010B02) with desc := 0x00010B02 } t == 4)
        = true ∧
    goesOn (step (hostAt (.writeReg 0 0x00000003))) (fun t => t.outLen == 0) = true ∧
    decode 0x000000FF = .error (.unassignedOp 0xFF) ∧
    goesOn (step (hostAt (.writeReg 0 0x000000FF))) (fun t => t.outLen == 0) = true ∧
    goesOn (step (hostAt (.writeReg 0 0x00000B04))) (fun t => t.outLen == 0) = true := by decide

/-- Two states that differ where the operation does not read. -/
theorem wit_OperationsAreDeterministicAndIdempotent :
    (ready 0x00000001 [0xAB]).desc = { ready 0x00000001 [0xAB] with csumRes := some 5 }.desc ∧
    (ready 0x00000001 [0xAB]).inLen = { ready 0x00000001 [0xAB] with csumRes := some 5 }.inLen ∧
    (∀ a, (ready 0x00000001 [0xAB]).inMem.read? a =
      ({ ready 0x00000001 [0xAB] with csumRes := some 5 } : State).inMem.read? a) ∧
    (∀ a, (ready 0x00000001 [0xAB]).table.read? a =
      ({ ready 0x00000001 [0xAB] with csumRes := some 5 } : State).table.read? a) ∧
    goesOn (exec .csum (ready 0x00000001 [0xAB])) (fun _ => true) = true ∧
    (ready 0x00000001 [0xAB]).outMem.wf = true :=
  ⟨rfl, rfl, fun _ => rfl, fun _ => rfl, by decide, rfl⟩

/-- V-L1-9 and V-FD-1: the frame of an empty message, and the host's copy of it. -/
theorem wit_FrameRoundTrip :
    StartedBy (.fenc 0xB 0 true false) (ready 0x00010B02 []) ∧ InputIs (ready 0x00010B02 []) [] ∧
    ([] : List Byte).length ≤ Config.params.inCap ∧
    encodedLength ([] : List Byte).length false ≤ Config.params.outCap ∧
    encodedLength ([] : List Byte).length false < 4294967296 ∧
    goesOn (exec (.fenc 0xB 0 true false) (ready 0x00010B02 [])) (fun t =>
      t.outLen == (ready 0x00000003 [0xB0, 0x01, 0x00, 0xF9]).inLen &&
        output t == (List.range 4).map (ready 0x00000003 [0xB0, 0x01, 0x00, 0xF9]).inMem.read?) = true ∧
    StartedBy .fdec (ready 0x00000003 [0xB0, 0x01, 0x00, 0xF9]) ∧ 4 ≤ Config.params.inCap :=
  ⟨rfl, inputIs_ready _ _ rfl, Nat.zero_le _, outCap_ge, by decide, by decide, rfl,
    Nat.le_trans (by decide) inCap_ge⟩

/-- V-L1-4: byte 3 of a frame changed from 01 to 00. -/
theorem wit_CorruptionIsDetected :
    StartedBy .fdec (ready 0x00000003 [0x14, 0x04, 0x00, 0x00, 0x02, 0x03, 0x8C]) ∧
    4 + 3 ≤ inputLength (ready 0x00000003 [0x14, 0x04, 0x00, 0x00, 0x02, 0x03, 0x8C]) ∧
    inputLength (ready 0x00000003 [0x14, 0x04, 0x00, 0x00, 0x02, 0x03, 0x8C]) ≤ Config.params.inCap ∧
    checksum (covered 1 2 [0x01, 0x02, 0x03]) ≠ 0x88 ∧ (3 ≤ 3 ∧ 3 < 3 + 3) ∧
    (encodeFrame 1 2 [0x01, 0x02, 0x03] true)[3]? ≠ some 0x00 ∧
    (ready 0x00000003 [0x14, 0x04, 0x00, 0x00, 0x02, 0x03, 0x8C]).inMem.Holds 0
      ((encodeFrame 1 2 [0x01, 0x02, 0x03] true).set 3 0x00) :=
  ⟨rfl, by decide, Nat.le_trans (by decide) inCap_ge, by decide, by decide, by decide, holds_of_read rfl⟩

/-- A step from a state that is not the one after reset and meets the invariant. -/
theorem wit_EveryStepKeepsTheInvariant :
    UnitInvariant { hostAt (.writeReg 0 0x00000001) with inMem := [(0, 0xAB)], inLen := 1 } ∧
    goesOn (step { hostAt (.writeReg 0 0x00000001) with inMem := [(0, 0xAB)], inLen := 1 })
      (fun t => t.csumRes == some 0x000000FF) = true := by
  refine ⟨⟨fun m => ?_, fun r w h => ?_, ⟨by decide, fun _ => rfl⟩,
    ⟨Nat.zero_le _, fun a h => absurd h (Nat.not_lt_zero a)⟩, nofun, nofun, nofun⟩, by decide⟩
  · cases m
    · exact ⟨rfl, by simp [Memory.below, hostAt, capacity, Config.params]⟩
    · exact ⟨rfl, rfl⟩
    · exact ⟨rfl, rfl⟩
  · match r, h with
    | 0, _ | 1, _ | 3, _ => trivial
    | 2, h => cases h; exact rfl
    | 4, h | 5, h | 6, h | 7, h | 8, h | _ + 9, h => cases h

end Sys2Proof.Tests
end

/-! PROOF. The statements about the unit's state (10_state.md): the host's steps, what an operation
writes and reads, the invariant. First the rules they share, then the statements. -/

namespace Sys2Proof.Machine

/-! ### One step: the host's next access -/

/-- With no host step pending the unit is idle (R131). -/
theorem step_of_pending_nil {s : State} (h : s.pending = []) : step s = .next s := by
  simp only [step, takeStep, h]

/-- The unit takes the first of the pending host steps (R53). -/
theorem step_of_pending_cons {s : State} {h : HostStep} {rest : List HostStep}
    (hp : s.pending = h :: rest) : step s = hostStep h (s.setPending rest) := by
  simp only [step, takeStep, hp]

/-- A DESC write of a legal descriptor runs its operation (R22, R117). -/
theorem step_descWrite_legal {s : State} {d : Word} {rest : List HostStep} {i : Instr}
    (hp : s.pending = .writeReg 0 d :: rest) (hd : decode d = .ok i) :
    step s = exec i ((s.setPending rest).setDesc d) := by
  rw [step_of_pending_cons hp]
  simp only [hostStep, hostWriteReg, startOperation, State.setDesc_desc, hd]

/-- A DESC write of an illegal descriptor ends ILLEGAL_OPERATION (R66, R118). -/
theorem step_descWrite_illegal {s : State} {d : Word} {rest : List HostStep} {e : DecodeError}
    (hp : s.pending = .writeReg 0 d :: rest) (hd : decode d = .error e) :
    step s = raise .illegalOperation ((s.setPending rest).setDesc d) := by
  rw [step_of_pending_cons hp]
  simp only [hostStep, hostWriteReg, startOperation, State.setDesc_desc, hd]

/-- What starting an operation can do: an ending of the operation that DESC selects, or
ILLEGAL_OPERATION. -/
theorem startOperation_next {s t : State} (h : startOperation s = .next t) :
    (∃ i, decode s.desc = .ok i ∧ Ending s i t) ∨
    (∃ e, decode s.desc = .error e ∧ t = (s.setStatus .illegalOperation).setOutLen 0) := by
  unfold startOperation at h
  cases hd : decode s.desc with
  | ok i => rw [hd] at h; exact .inl ⟨i, rfl, exec_ending h⟩
  | error e => rw [hd] at h; exact .inr ⟨e, rfl, (raise_eq_next ..).1 h⟩

/-- What a step that writes `d` to DESC can do, in the state with DESC = `d` and that step taken. -/
theorem step_descWrite_next {s t : State} {d : Word} {rest : List HostStep}
    (hp : s.pending = .writeReg 0 d :: rest) (h : step s = .next t) :
    (∃ i, decode d = .ok i ∧ Ending ((s.setPending rest).setDesc d) i t) ∨
    (∃ e, decode d = .error e ∧
      t = (((s.setPending rest).setDesc d).setStatus .illegalOperation).setOutLen 0) := by
  rw [step_of_pending_cons hp] at h
  exact startOperation_next h

/-! ### Host accesses to registers and memories -/

theorem hostWriteReg_readOnly {r : Nat} (v : Word) (s : State) (h : 2 ≤ r) (h' : r ≤ 8) :
    hostWriteReg r v s = .next s := by
  match r, h, h' with
  | 2, _, _ | 3, _, _ | 4, _, _ | 5, _, _ | 6, _, _ | 7, _, _ | 8, _, _ => rfl

theorem hostWriteReg_unmapped {r : Nat} (v : Word) (s : State) (h : 9 ≤ r) :
    hostWriteReg r v s = .refused (.unmappedRegister r) := by
  match r, h with
  | _ + 9, _ => rfl

theorem hostReadReg_unmapped {r : Nat} (s : State) (h : 9 ≤ r) :
    hostReadReg r s = .refused (.unmappedRegister r) := by
  match r, h with
  | _ + 9, _ => rfl

/-- A read of a register that holds a value observes it (R31). -/
theorem hostReadReg_of_value {s : State} {r : Nat} {w : Word} (h : registerValue s r = some w) :
    hostReadReg r s = .next (s.observe (.reg w)) := by
  match r, h with
  | 0, h | 1, h | 2, h | 3, h => cases h; rfl
  | 4, h | 5, h | 6, h | 7, h | 8, h =>
    simp only [registerValue] at h
    simp only [hostReadReg, readResult, h]

/-- A read of a mapped register that holds no value is a model fault (R31, R36). -/
theorem hostReadReg_of_none {s : State} {r : Nat} (hr : r ≤ 8) (h : registerValue s r = none) :
    hostReadReg r s = .fault (.neverWrittenReg r) := by
  match r, hr, h with
  | 4, _, h | 5, _, h | 6, _, h | 7, _, h | 8, _, h =>
    simp only [registerValue] at h
    simp only [hostReadReg, readResult, h]

theorem hostReadMem_of_none {p : Params} {m : MemId} {a : Nat} {s : State} (ha : a < capacity p m)
    (h : (s.mem m).read? a = none) : hostReadMem p m a s = .fault (.neverWrittenByte m a) := by
  simp only [hostReadMem, if_pos ha, readByte, h, withRead_error]

theorem hostReadMem_outside {p : Params} {m : MemId} {a : Nat} (s : State) (ha : capacity p m ≤ a) :
    hostReadMem p m a s = .refused (.indexOutsideMemory m a) := if_neg (by omega)

theorem hostWriteMem_outside {p : Params} {m : MemId} {a : Nat} (b : Byte) (s : State)
    (ha : capacity p m ≤ a) : hostWriteMem p m a b s = .refused (.indexOutsideMemory m a) :=
  if_neg (by omega)

/-- The next states of a host step, by what the step is. -/
inductive HostEffect (s : State) : HostStep → State → Prop where
  /-- A DESC write runs an operation (R22). -/
  | started (d : Word) (t : State) (h : startOperation (s.setDesc d) = .next t) :
      HostEffect s (.writeReg 0 d) t
  /-- An IN_LEN write (R23). -/
  | length (v : Word) : HostEffect s (.writeReg 1 v) (s.setInLen v)
  /-- A write to a read-only register is ignored (R31). -/
  | ignored (r : Nat) (v : Word) : HostEffect s (.writeReg r v) s
  /-- A register read (R31). -/
  | readReg (r : Nat) (w : Word) : HostEffect s (.readReg r) (s.observe (.reg w))
  /-- A byte written inside its memory (R47). -/
  | writeMem (m : MemId) (a : Nat) (b : Byte) (ha : a < capacity Config.params m) :
      HostEffect s (.writeMem m a b) (s.setMem m ((s.mem m).write a b))
  /-- A byte read (R47). -/
  | readMem (m : MemId) (a : Nat) (b : Byte) : HostEffect s (.readMem m a) (s.observe (.byte b))
  /-- Reset (R132). -/
  | reset : HostEffect s .reset (resetUnit s)

theorem hostWriteReg_effect {r : Nat} {v : Word} {s t : State} (h : hostWriteReg r v s = .next t) :
    HostEffect s (.writeReg r v) t := by
  match r, h with
  | 0, h => exact .started v t h
  | 1, h => cases h; exact .length v
  | r + 2, h =>
    rcases Nat.lt_or_ge r 7 with hr | hr
    · rw [hostWriteReg_readOnly v s (by omega) (by omega)] at h
      cases h; exact .ignored _ v
    · rw [hostWriteReg_unmapped v s (by omega)] at h
      cases h

theorem hostReadReg_effect {r : Nat} {s t : State} (h : hostReadReg r s = .next t) :
    HostEffect s (.readReg r) t := by
  cases hv : registerValue s r with
  | some w =>
    rw [hostReadReg_of_value hv] at h
    cases h; exact .readReg r w
  | none =>
    rcases Nat.lt_or_ge r 9 with hr | hr
    · rw [hostReadReg_of_none (by omega) hv] at h
      cases h
    · rw [hostReadReg_unmapped s hr] at h
      cases h

theorem hostWriteMem_effect {m : MemId} {a : Nat} {b : Byte} {s t : State}
    (h : hostWriteMem Config.params m a b s = .next t) : HostEffect s (.writeMem m a b) t := by
  unfold hostWriteMem at h
  split at h
  next ha => cases h; exact .writeMem m a b ha
  next => cases h

theorem hostReadMem_effect {p : Params} {m : MemId} {a : Nat} {s t : State}
    (h : hostReadMem p m a s = .next t) : HostEffect s (.readMem m a) t := by
  unfold hostReadMem at h
  split at h
  next =>
    obtain ⟨b, -, h⟩ := (withRead_eq_next ..).1 h
    cases h; exact .readMem m a b
  next => cases h

/-- Every next state of a host step is one of its effects. -/
theorem hostStep_effect {h : HostStep} {s t : State} (hs : hostStep h s = .next t) :
    HostEffect s h t := by
  cases h with
  | writeReg r v => exact hostWriteReg_effect hs
  | readReg r => exact hostReadReg_effect hs
  | writeMem m a b => exact hostWriteMem_effect hs
  | readMem m a => exact hostReadMem_effect hs
  | reset => cases hs; exact .reset

/-- Only an operation and a reset change STATUS (R24). -/
theorem HostEffect.status_eq {s t : State} {h : HostStep} (he : HostEffect s h t)
    (hw : ∀ d, h ≠ .writeReg 0 d) (hr : h ≠ .reset) : t.status = s.status := by
  cases he with
  | started d => exact absurd rfl (hw d)
  | reset => exact absurd rfl hr
  | length | ignored | readReg | readMem => rfl
  | writeMem m a b => exact State.setMem_status ..

/-! ### What an operation writes -/

theorem statusByte_eq_one_iff (c : StatusCode) : statusByte c = 0x01 ↔ c = .ok := by
  cases c <;> decide

theorem statusByte_le_nine (c : StatusCode) : (statusByte c).toNat ≤ 9 := by
  cases c <;> decide

@[simp] theorem not_raisesPlain_ok (i : Instr) : ¬ raisesPlain i .ok := by
  cases i <;> exact id

/-- The codes with which `i` ends: OK, an error without detail, and the two that have a detail
register (R116). -/
def EndsWith (i : Instr) (c : StatusCode) : Prop :=
  c = .ok ∨ raisesPlain i c ∨ (i = .fdec ∧ c = .checksumMismatch) ∨
    ((∃ cat cmd, i = .ackchk cat cmd) ∧ c = .invalidAck)

/-- The table of the errors without detail (R116), read from the code. -/
theorem raisesPlain_cases {i : Instr} {c : StatusCode} (h : raisesPlain i c) :
    c = .capacity ∧ (∀ cat cmd, i ≠ .ackchk cat cmd) ∨
    c = .encodeRange ∧ (∃ cat cmd calcBit pad, i = .fenc cat cmd calcBit pad) ∨
    c = .truncatedFrame ∧ i = .fdec ∨
    c = .badImageLength ∧ (∃ wide, i = .imgu wide) ∨
    c = .otpTooShort ∧ i = .otpv := by
  unfold raisesPlain at h
  split at h
  next => exact h.elim
  next hi => exact .inl ⟨rfl, hi⟩
  next => exact .inr (.inl ⟨rfl, _, _, _, _, rfl⟩)
  next => exact .inr (.inr (.inl ⟨rfl, rfl⟩))
  next => exact .inr (.inr (.inr (.inl ⟨rfl, _, rfl⟩)))
  next => exact .inr (.inr (.inr (.inr ⟨rfl, rfl⟩)))
  next => exact h.elim

section Ending

variable {s t : State} {i : Instr}

/-- An operation leaves DESC, IN_LEN, IN, TABLE and the host's side unchanged (R32). -/
theorem Ending.frame (h : Ending s i t) :
    t.desc = s.desc ∧ t.inLen = s.inLen ∧ t.inMem = s.inMem ∧ t.table = s.table ∧
      t.pending = s.pending ∧ t.observed = s.observed := by
  cases h <;> exact ⟨rfl, rfl, rfl, rfl, rfl, rfl⟩

/-- STATUS after an operation: LAST_OP from DESC, and a code of the operation (R24, R116). -/
theorem Ending.status (h : Ending s i t) :
    ∃ c, EndsWith i c ∧ t.status = statusWord (s.desc.extractLsb' 0 8) c := by
  cases h with
  | plain _ c hc => exact ⟨c, .inr (.inl hc), rfl⟩
  | mismatch => exact ⟨_, .inr (.inr (.inl ⟨rfl, rfl⟩)), rfl⟩
  | ack cat cmd =>
    refine ⟨_, ?_, rfl⟩
    split
    · exact .inl rfl
    · exact .inr (.inr (.inr ⟨⟨cat, cmd, rfl⟩, rfl⟩))
  | csum | otp | decoded | output => exact ⟨.ok, .inl rfl, rfl⟩

theorem bytesWritten_of_ok (h : statusCodeField t.status = 0x01) :
    bytesWritten i s t = outputLength i s := if_pos h

theorem bytesWritten_of_ne_ok (h : statusCodeField t.status ≠ 0x01) : bytesWritten i s t = 0 :=
  if_neg h

/-- No operation without a byte sequence writes a byte (R25). -/
theorem bytesWritten_of_no_output (h : outputLength i s = 0) : bytesWritten i s t = 0 := by
  simp only [bytesWritten, h, ite_self]

/-- What an operation writes to OUT: `bytesWritten` bytes from index 0 up, inside OUT, and OUT_LEN
counts them (R25, R34). -/
theorem Ending.out (h : Ending s i t) :
    ∃ bs : List Byte, bs.length = bytesWritten i s t ∧ bs.length ≤ Config.params.outCap ∧
      t.outMem = s.outMem.writeBytes 0 bs ∧ t.outLen = outLenWord s.desc s.inLen bs.length := by
  cases h with
  | plain _ c hc =>
    refine ⟨[], (bytesWritten_of_ne_ok ?_).symm, Nat.zero_le _, rfl, rfl⟩
    rw [State.setOutLen_status, State.setStatus_status, statusCodeField_statusWord, ne_eq,
      statusByte_eq_one_iff]
    rintro rfl
    exact not_raisesPlain_ok _ hc
  | mismatch =>
    refine ⟨[], (bytesWritten_of_ne_ok ?_).symm, Nat.zero_le _, rfl, rfl⟩
    rw [State.setOutLen_status, State.setStatus_status, statusCodeField_statusWord]
    decide
  | ack | csum | otp =>
    exact ⟨[], (bytesWritten_of_no_output rfl).symm, Nat.zero_le _, rfl, rfl⟩
  | decoded b0 declared skipped pl _ _ hn hc =>
    exact ⟨pl, hn.trans (bytesWritten_of_ok (statusCodeField_statusWord ..)).symm, hc, rfl, rfl⟩
  | output _ bs hn hc =>
    exact ⟨bs, hn.trans (bytesWritten_of_ok (statusCodeField_statusWord ..)).symm, hc, rfl, rfl⟩

/-- The bytes of OUT that an operation did not write read as before (R34). -/
theorem Ending.read?_outMem_of_le (h : Ending s i t) {a : Nat} (ha : bytesWritten i s t ≤ a) :
    t.outMem.read? a = s.outMem.read? a := by
  obtain ⟨bs, hb, -, hm, -⟩ := h.out
  rw [hm, Memory.read?_writeBytes_zero, if_neg (by omega)]

/-- The bytes of OUT that an operation wrote lie inside OUT and hold a value (R34). -/
theorem Ending.held_of_lt (h : Ending s i t) {a : Nat} (ha : a < bytesWritten i s t) :
    a < Config.params.outCap ∧ (t.outMem.read? a).isSome := by
  obtain ⟨bs, hb, hc, hm, -⟩ := h.out
  rw [← hb] at ha
  rw [hm, Memory.read?_writeBytes_zero, if_pos ha, List.getElem?_eq_getElem ha]
  exact ⟨by omega, rfl⟩

theorem Ending.bytesWritten_le_outCap (h : Ending s i t) :
    bytesWritten i s t ≤ Config.params.outCap := by
  obtain ⟨bs, hb, hc, -, -⟩ := h.out
  omega

/-- OUT_LEN counts the bytes an operation wrote (R25). -/
theorem Ending.outLen_eq (h : Ending s i t) :
    t.outLen = outLenWord s.desc s.inLen (bytesWritten i s t) := by
  obtain ⟨bs, hb, -, -, hl⟩ := h.out
  rw [hl, hb]

theorem Ending.outLen_eq_zero (h : Ending s i t) (hb : bytesWritten i s t = 0) : t.outLen = 0 := by
  rw [h.outLen_eq, hb, outLenWord_zero]

/-- Only a CSUM that ends OK writes CSUM_RES (R26). -/
theorem Ending.csumRes_eq_or (h : Ending s i t) :
    t.csumRes = s.csumRes ∨ i = .csum ∧ statusCodeField t.status = 0x01 := by
  cases h with
  | csum => exact .inr ⟨rfl, statusCodeField_statusWord ..⟩
  | _ => exact .inl rfl

/-- Only an FDEC that ends OK writes DEC_HDR (R27). -/
theorem Ending.decHdr_eq_or (h : Ending s i t) :
    t.decHdr = s.decHdr ∨ i = .fdec ∧ statusCodeField t.status = 0x01 := by
  cases h with
  | decoded => exact .inr ⟨rfl, statusCodeField_statusWord ..⟩
  | _ => exact .inl rfl

/-- Only an FDEC that ends CHECKSUM_MISMATCH writes ERR_CSUM (R28). -/
theorem Ending.errCsum_eq_or (h : Ending s i t) :
    t.errCsum = s.errCsum ∨ i = .fdec ∧ statusCodeField t.status = 0x02 := by
  cases h with
  | mismatch => exact .inr ⟨rfl, statusCodeField_statusWord ..⟩
  | _ => exact .inl rfl

/-- Only an ACKCHK writes ACK_RSN, and it ends OK or INVALID_ACK (R29). -/
theorem Ending.ackRsn_eq_or (h : Ending s i t) :
    t.ackRsn = s.ackRsn ∨ (∃ cat cmd, i = .ackchk cat cmd) ∧
      (statusCodeField t.status = 0x01 ∨ statusCodeField t.status = 0x03) := by
  cases h with
  | ack cat cmd =>
    refine .inr ⟨⟨cat, cmd, rfl⟩, ?_⟩
    rw [State.setStatus_status, statusCodeField_statusWord]
    split
    · exact .inl rfl
    · exact .inr rfl
  | _ => exact .inl rfl

/-- Only an OTPV that ends OK writes OTP_RES (R30). -/
theorem Ending.otpRes_eq_or (h : Ending s i t) :
    t.otpRes = s.otpRes ∨ i = .otpv ∧ statusCodeField t.status = 0x01 := by
  cases h with
  | otp => exact .inr ⟨rfl, statusCodeField_statusWord ..⟩
  | _ => exact .inl rfl

end Ending

/-! ### What an operation reads -/

/-- `f` is the fault of a byte inside IN or TABLE that was never written in `s` (R36, R37). -/
def UnitReadFault (p : Params) (s : State) (f : Fault) : Prop :=
  ∃ m a, f = .neverWrittenByte m a ∧ m ≠ .out ∧ a < capacity p m ∧ (s.mem m).read? a = none

/-- The result is no refusal, and a fault of it is that of a read inside the memories of `s` (R37). -/
def StaysInside (p : Params) (s : State) : Result → Prop
  | .next _ => True
  | .fault f => UnitReadFault p s f
  | .refused _ => False

section StaysInside

variable {p : Params} {s : State}

theorem staysInside_raise (c : StatusCode) (t : State) : StaysInside p s (raise c t) := trivial

theorem staysInside_finishOk (t : State) : StaysInside p s (finishOk t) := trivial

theorem staysInside_withRead {α : Type} {r : Except Fault α} {k : α → Result}
    (hr : ∀ f, r = .error f → UnitReadFault p s f) (hk : ∀ v, StaysInside p s (k v)) :
    StaysInside p s (withRead r k) := by
  cases r with
  | ok v => exact hk v
  | error f => exact hr f rfl

theorem staysInside_checkInput {k : Result} (hk : inputLength s ≤ p.inCap → StaysInside p s k) :
    StaysInside p s (checkInput p s k) := by
  rcases Nat.lt_or_ge p.inCap (inputLength s) with h | h
  · rw [checkInput_of_lt p s k h]; exact staysInside_raise _ _
  · rw [checkInput_of_le p s k h]; exact hk h

theorem readIn_unitReadFault {a : Nat} (ha : a < p.inCap) (f : Fault) (h : readIn s a = .error f) :
    UnitReadFault p s f := by
  obtain ⟨hn, rfl⟩ := readIn_fault h
  exact ⟨.inp, a, rfl, by decide, ha, hn⟩

theorem readInBytes_unitReadFault {a n : Nat} (ha : a + n ≤ p.inCap) (f : Fault)
    (h : readInBytes s a n = .error f) : UnitReadFault p s f := by
  obtain ⟨j, hj, hn, rfl⟩ := readBytes_fault _ _ _ _ _ h
  exact ⟨.inp, a + j, rfl, by decide, Nat.lt_of_lt_of_le (by omega) ha, hn⟩

/-- A byte is an index inside TABLE (R35). -/
theorem otpWalk_unitReadFault {j : Nat} {st : Byte} {o : List Byte} (f : Fault)
    (h : otpWalk (readTable s) j st o = .error f) : UnitReadFault p s f := by
  obtain ⟨x, hx⟩ := otpWalk_fault h
  obtain ⟨hn, rfl⟩ := readTable_fault hx
  exact ⟨.table, x.toNat, rfl, by decide, x.isLt, hn⟩

theorem runCsum_staysInside : StaysInside p s (runCsum p s) :=
  staysInside_checkInput fun hc =>
    staysInside_withRead (readInBytes_unitReadFault (by omega)) fun _ => staysInside_finishOk _

theorem runFenc_staysInside {cat : Category} {cmd : Command} {calcBit pad : Bool} :
    StaysInside p s (runFenc p cat cmd calcBit pad s) := by
  refine staysInside_checkInput fun hc => ?_
  split
  · exact staysInside_raise _ _
  · refine staysInside_withRead (readInBytes_unitReadFault (by omega)) fun pl => ?_
    split
    · exact staysInside_raise _ _
    · exact staysInside_finishOk _

theorem deliverPayload_staysInside {b0 : Byte} {declared : Half} {skipped : Bool}
    (hd : dataSpan declared ≤ p.inCap) :
    StaysInside p s (deliverPayload p b0 declared skipped s) := by
  unfold deliverPayload
  split
  · exact staysInside_raise _ _
  · exact staysInside_withRead (readInBytes_unitReadFault hd) fun _ => staysInside_finishOk _

/-- FDEC's checksum step reads nothing above the checksum byte (R88). -/
theorem verifyFrame_staysInside {b0 : Byte} {declared : Half} (hd : dataSpan declared < p.inCap) :
    StaysInside p s (verifyFrame p b0 declared s) := by
  refine staysInside_withRead (readIn_unitReadFault hd) fun rcv => ?_
  split
  · exact deliverPayload_staysInside (by omega)
  · refine staysInside_withRead (readInBytes_unitReadFault (by omega)) fun body => ?_
    split
    · exact deliverPayload_staysInside (by omega)
    · exact staysInside_raise _ _

theorem runFdec_staysInside : StaysInside p s (runFdec p s) := by
  refine staysInside_checkInput fun hc => ?_
  split
  · exact staysInside_raise _ _
  · refine staysInside_withRead (readInBytes_unitReadFault (by omega)) fun hdr => ?_
    dsimp only
    split
    · exact staysInside_raise _ _
    · split
      · exact staysInside_raise _ _
      · exact verifyFrame_staysInside (by omega)

theorem runOtpv_staysInside : StaysInside p s (runOtpv p s) := by
  refine staysInside_checkInput fun hc => ?_
  split
  · exact staysInside_raise _ _
  · refine staysInside_withRead (readInBytes_unitReadFault (by omega)) fun o => ?_
    exact staysInside_withRead otpWalk_unitReadFault fun _ => staysInside_finishOk _

theorem runImgu_staysInside {wide : Bool} : StaysInside p s (runImgu p wide s) := by
  refine staysInside_checkInput fun hc => ?_
  split
  · exact staysInside_raise _ _
  · split
    · exact staysInside_raise _ _
    · exact staysInside_withRead (readInBytes_unitReadFault (by omega)) fun _ => staysInside_finishOk _

theorem runFdtb_staysInside : StaysInside p s (runFdtb p s) := by
  refine staysInside_checkInput fun hc => ?_
  have ht : fdtTotal (inputLength s) ≤ inputLength s := by simp only [fdtTotal]; omega
  split
  · exact staysInside_raise _ _
  · exact staysInside_withRead (readInBytes_unitReadFault (by omega)) fun _ => staysInside_finishOk _

end StaysInside

/-- No operation is refused, and what one faults on lies inside IN or TABLE (R37). -/
theorem exec_staysInside (i : Instr) (s : State) : StaysInside Config.params s (exec i s) := by
  cases i with
  | csum => exact runCsum_staysInside
  | fenc => exact runFenc_staysInside
  | fdec => exact runFdec_staysInside
  | ackchk cat cmd => rw [exec_ackchk, execAckchk_eq]; trivial
  | otpv => exact runOtpv_staysInside
  | imgu => exact runImgu_staysInside
  | fdtb => exact runFdtb_staysInside

/-! ### The invariant, one rule per state operation -/

/-- The invariant says nothing of the host's side. -/
theorem UnitInvariant.of_unitOf_eq {s t : State} (h : UnitInvariant s) (he : unitOf t = unitOf s) :
    UnitInvariant t := by
  have hs : UnitInvariant (unitOf s) := ⟨h.memories, h.reserved, h.status, h.output, h.results⟩
  rw [← he] at hs
  exact ⟨hs.memories, hs.reserved, hs.status, hs.output, hs.results⟩

/-- The reserved fields, register by register. -/
theorem reservedBitsZero_iff (s : State) :
    ReservedBitsZero s ↔ s.status.extractLsb' 16 16 = 0 ∧
      (∀ w ∈ s.csumRes, w.extractLsb' 8 24 = 0) ∧ (∀ w ∈ s.decHdr, w.extractLsb' 9 7 = 0) ∧
      (∀ w ∈ s.errCsum, w.extractLsb' 16 16 = 0) ∧ (∀ w ∈ s.ackRsn, w.extractLsb' 2 30 = 0) ∧
      (∀ w ∈ s.otpRes, w.extractLsb' 1 7 = 0 ∧ w.extractLsb' 24 8 = 0) := by
  constructor
  · exact fun h => ⟨h 2 _ rfl, h 4, h 5, h 6, h 7, h 8⟩
  · rintro ⟨hst, hc, hd, he, ha, ho⟩ r w hw
    match r, hw with
    | 0, _ | 1, _ | 3, _ => trivial
    | 2, hw => cases hw; exact hst
    | 4, hw => exact hc w hw
    | 5, hw => exact hd w hw
    | 6, hw => exact he w hw
    | 7, hw => exact ha w hw
    | 8, hw => exact ho w hw

theorem unitInvariant_reset : UnitInvariant State.reset where
  memories m := by cases m <;> exact ⟨rfl, rfl⟩
  reserved := (reservedBitsZero_iff _).2 ⟨rfl, nofun, nofun, nofun, nofun, nofun⟩
  status := ⟨by decide, fun _ => rfl⟩
  output := ⟨Nat.zero_le _, fun a h => absurd h (Nat.not_lt_zero a)⟩
  results := ⟨nofun, nofun, nofun⟩

section Rules

variable {s : State} (h : UnitInvariant s)
include h

theorem UnitInvariant.setDesc (v : Word) : UnitInvariant (s.setDesc v) :=
  ⟨h.memories, (reservedBitsZero_iff _).2 ((reservedBitsZero_iff s).1 h.reserved), h.status, h.output,
    h.results⟩

theorem UnitInvariant.setInLen (v : Word) : UnitInvariant (s.setInLen v) :=
  ⟨h.memories, (reservedBitsZero_iff _).2 ((reservedBitsZero_iff s).1 h.reserved), h.status, h.output,
    h.results⟩

theorem UnitInvariant.setCsumRes (b : Byte) : UnitInvariant (s.setCsumRes (csumResWord b)) := by
  obtain ⟨hst, -, hd, he, ha, ho⟩ := (reservedBitsZero_iff _).1 h.reserved
  exact ⟨h.memories, (reservedBitsZero_iff _).2 ⟨hst, by simp, hd, he, ha, ho⟩, h.status, h.output,
    h.results⟩

theorem UnitInvariant.setDecHdr (b : Byte) (skipped : Bool) {declared : Half} (hn : declared ≠ 0) :
    UnitInvariant (s.setDecHdr (decHdrWord b skipped declared)) := by
  obtain ⟨hst, hc, -, he, ha, ho⟩ := (reservedBitsZero_iff _).1 h.reserved
  obtain ⟨-, hre, hro⟩ := h.results
  exact ⟨h.memories, (reservedBitsZero_iff _).2 ⟨hst, hc, by simp, he, ha, ho⟩, h.status, h.output,
    by simpa using hn, hre, hro⟩

theorem UnitInvariant.setErrCsum {e r : Byte} (hne : e ≠ r) (hr : r ≠ csumSentinel) :
    UnitInvariant (s.setErrCsum (errCsumWord e r)) := by
  obtain ⟨hst, hc, hd, -, ha, ho⟩ := (reservedBitsZero_iff _).1 h.reserved
  obtain ⟨hrd, -, hro⟩ := h.results
  rw [csumSentinel_eq] at hr
  exact ⟨h.memories, (reservedBitsZero_iff _).2 ⟨hst, hc, hd, by simp, ha, ho⟩, h.status, h.output,
    hrd, by simpa using ⟨hne, hr⟩, hro⟩

theorem UnitInvariant.setAckRsn (catBad cmdBad : Bool) :
    UnitInvariant (s.setAckRsn (ackRsnWord catBad cmdBad)) := by
  obtain ⟨hst, hc, hd, he, -, ho⟩ := (reservedBitsZero_iff _).1 h.reserved
  exact ⟨h.memories, (reservedBitsZero_iff _).2 ⟨hst, hc, hd, he, by simp, ho⟩, h.status, h.output,
    h.results⟩

theorem UnitInvariant.setOtpRes (e c : Byte) : UnitInvariant (s.setOtpRes (otpResWord e c)) := by
  obtain ⟨hst, hc, hd, he, ha, -⟩ := (reservedBitsZero_iff _).1 h.reserved
  obtain ⟨hrd, hre, -⟩ := h.results
  exact ⟨h.memories, (reservedBitsZero_iff _).2 ⟨hst, hc, hd, he, ha, by simp⟩, h.status, h.output,
    hrd, hre, by simp⟩

/-- A memory replaced by a well-formed one keeps the invariant, if OUT still holds what OUT_LEN counts. -/
theorem UnitInvariant.setMem {m : MemId} {x : Memory} (hw : x.wf = true)
    (hb : x.below (capacity Config.params m) = true)
    (hx : ∀ a, ((s.mem m).read? a).isSome = true → (x.read? a).isSome = true) :
    UnitInvariant (s.setMem m x) where
  memories k := by
    rw [State.mem_setMem]
    split
    next hk => subst hk; exact ⟨hw, hb⟩
    next => exact h.memories k
  reserved := by simpa [reservedBitsZero_iff] using (reservedBitsZero_iff s).1 h.reserved
  status := by simpa [StatusLegal] using h.status
  output := by
    obtain ⟨hl, ho⟩ := h.output
    refine ⟨by simpa using hl, fun a ha => ?_⟩
    rw [State.setMem_outLen] at ha
    rw [← State.mem_out, State.mem_setMem]
    split
    next hm => subst hm; exact hx a (ho a ha)
    next => exact ho a ha
  results := by simpa [ResultsConsistent] using h.results

/-- A host write inside a memory. -/
theorem UnitInvariant.write (m : MemId) {a : Nat} (b : Byte) (ha : a < capacity Config.params m) :
    UnitInvariant (s.setMem m ((s.mem m).write a b)) := by
  obtain ⟨hw, hb⟩ := h.memories m
  refine h.setMem (Memory.wf_write _ a b hw) (Memory.below_write _ _ a b hb ha) fun c hc => ?_
  rw [Memory.read?_write]
  split
  · rfl
  · exact hc

/-- An operation's output, if it fits OUT. -/
theorem UnitInvariant.putOut {bs : List Byte} (hc : bs.length ≤ Config.params.outCap) :
    UnitInvariant (s.putOut bs) := by
  obtain ⟨hw, hb⟩ := h.memories .out
  refine h.setMem (m := .out) (Memory.wf_writeBytes _ 0 bs hw)
    (Memory.below_writeBytes _ _ 0 bs hb (by rwa [Nat.zero_add])) fun a ha => ?_
  rw [Memory.read?_writeBytes_zero]
  split
  next hlt => rw [List.getElem?_eq_getElem hlt]; rfl
  next => exact ha

/-- The end of an operation: OUT_LEN counts `n` bytes that OUT holds, and none on an error. -/
theorem UnitInvariant.finish {c : StatusCode} {n : Nat} (hn : n ≤ Config.params.outCap)
    (ho : ∀ a, a < n → (s.outMem.read? a).isSome = true) (hc : c = .ok ∨ n = 0) :
    UnitInvariant ((s.setOutLen n).setStatus c) := by
  obtain ⟨-, hcs, hd, he, ha, hot⟩ := (reservedBitsZero_iff _).1 h.reserved
  have hle : (outLenWord s.desc s.inLen n).toNat ≤ n := outLenWord_le ..
  refine ⟨h.memories, (reservedBitsZero_iff _).2 ⟨statusWord_reserved .., hcs, hd, he, ha, hot⟩,
    ⟨?_, fun hne => ?_⟩, ⟨Nat.le_trans hle hn, fun a hlt => ho a (Nat.lt_of_lt_of_le hlt hle)⟩,
    h.results⟩
  · rw [State.setStatus_status, statusCodeField_statusWord]
    exact statusByte_le_nine c
  · rw [State.setStatus_status, statusCodeField_statusWord, ne_eq, statusByte_eq_one_iff] at hne
    obtain rfl := hc.resolve_left hne
    exact outLenWord_zero s.desc s.inLen

theorem UnitInvariant.finish_no_output (c : StatusCode) :
    UnitInvariant ((s.setOutLen 0).setStatus c) :=
  h.finish (Nat.zero_le _) (fun a ha => absurd ha (Nat.not_lt_zero a)) (.inr rfl)

/-- Error entry (R120); the order of its two writes makes no difference. -/
theorem UnitInvariant.raised (c : StatusCode) : UnitInvariant ((s.setStatus c).setOutLen 0) :=
  h.finish_no_output c

end Rules

/-- The bytes just written to OUT are held. -/
theorem isSome_read?_putOut (s : State) {bs : List Byte} {a : Nat} (ha : a < bs.length) :
    ((s.putOut bs).outMem.read? a).isSome = true := by
  rw [State.putOut_outMem, Memory.read?_writeBytes_zero, if_pos ha, List.getElem?_eq_getElem ha]
  rfl

/-- Every ending of an operation keeps the invariant. -/
theorem UnitInvariant.ending {s t : State} {i : Instr} (h : UnitInvariant s) (he : Ending s i t) :
    UnitInvariant t := by
  cases he with
  | plain _ c => exact h.raised c
  | mismatch e r hne hr => exact (h.setErrCsum hne hr).raised _
  | ack => exact (h.setAckRsn _ _).finish_no_output _
  | csum => exact (h.setCsumRes _).finish_no_output _
  | otp => exact (h.setOtpRes _ _).finish_no_output _
  | decoded b0 _ skipped pl hd _ _ hc =>
    exact ((h.putOut hc).setDecHdr b0 skipped hd).finish hc (fun _ => isSome_read?_putOut s) (.inl rfl)
  | output _ bs _ hc => exact (h.putOut hc).finish hc (fun _ => isSome_read?_putOut s) (.inl rfl)

theorem UnitInvariant.startOperation {s t : State} (h : UnitInvariant s)
    (hs : Machine.startOperation s = .next t) : UnitInvariant t := by
  rcases startOperation_next hs with ⟨i, -, he⟩ | ⟨e, -, rfl⟩
  · exact h.ending he
  · exact h.raised _

/-- Every host step keeps the invariant. -/
theorem UnitInvariant.hostEffect {s t : State} {x : HostStep} (h : UnitInvariant s)
    (he : HostEffect s x t) : UnitInvariant t := by
  cases he with
  | started d _ hs => exact (h.setDesc d).startOperation hs
  | length v => exact h.setInLen v
  | ignored => exact h
  | readReg | readMem => exact h.of_unitOf_eq rfl
  | writeMem m a b ha => exact h.write m b ha
  | reset => exact unitInvariant_reset.of_unitOf_eq rfl

/-! ### The statements -/

/-- Settles O44: an idle step changes nothing, and every host step's effect keeps the invariant. -/
theorem everyStepKeepsTheInvariant : Obligations.EveryStepKeepsTheInvariant := by
  intro s t h hs
  cases hp : s.pending with
  | nil => rw [step_of_pending_nil hp] at hs; cases hs; exact h
  | cons x rest =>
    rw [step_of_pending_cons hp] at hs
    exact (h.of_unitOf_eq (t := s.setPending rest) rfl).hostEffect (hostStep_effect hs)

/-- Settles O43. -/
theorem resetMeetsTheInvariant : Obligations.ResetMeetsTheInvariant := unitInvariant_reset

/-- Settles O5, register by register. -/
theorem registersAnswerTheHost : Obligations.RegistersAnswerTheHost := by
  intro s rest
  refine ⟨fun r v h2 h8 hp => ?_, fun v t hp ht => ?_, fun v hp => ?_, fun r w hp hv => ?_,
    fun r _ h8 hp hv => ?_⟩
  · rw [step_of_pending_cons hp]
    exact ⟨_, hostWriteReg_readOnly v _ h2 h8, rfl⟩
  · rcases step_descWrite_next hp ht with ⟨i, -, he⟩ | ⟨e, -, rfl⟩
    · exact he.frame.1
    · rfl
  · rw [step_of_pending_cons hp]
    exact ⟨_, rfl, rfl⟩
  · rw [step_of_pending_cons hp]
    exact ⟨_, hostReadReg_of_value (s := s.setPending rest) hv, rfl, fun h => h r w hv⟩
  · rw [step_of_pending_cons hp]
    exact hostReadReg_of_none (s := s.setPending rest) h8 hv

/-- Settles O6: the accesses outside the map by their cases, the operations by `exec_staysInside`. -/
theorem accessesOutsideTheMapAreRefused : Obligations.AccessesOutsideTheMapAreRefused := by
  refine ⟨fun s rest r v hr hp => ?_, fun s rest m a b hi ho ht hp => ?_, fun i s q h => ?_,
    fun i s f h => ?_, fun i s t a h ha => ?_⟩
  · rcases hp with hp | hp <;> rw [step_of_pending_cons hp]
    · exact hostWriteReg_unmapped v _ hr
    · exact hostReadReg_unmapped _ hr
  · have ha : capacity Config.params m ≤ a := by
      cases m with
      | inp => exact hi rfl
      | out => exact ho rfl
      | table => exact ht rfl
    rcases hp with hp | hp <;> rw [step_of_pending_cons hp]
    · exact hostWriteMem_outside b _ ha
    · exact hostReadMem_outside _ ha
  · have := exec_staysInside i s
    rwa [h] at this
  · have := exec_staysInside i s
    rwa [h] at this
  · have he := exec_ending h
    exact he.read?_outMem_of_le (Nat.le_trans he.bytesWritten_le_outCap ha)

/-- Settles O35, field by field over the endings. -/
theorem operationsWriteOnlyTheirRegisters : Obligations.OperationsWriteOnlyTheirRegisters := by
  intro i s t h
  have he := exec_ending h
  exact ⟨he.frame, he.csumRes_eq_or, he.decHdr_eq_or, he.errCsum_eq_or, he.ackRsn_eq_or,
    he.otpRes_eq_or, fun _ => he.read?_outMem_of_le⟩

/-- The row of R116's table that a status code `code` of an operation on the descriptor `d` meets. -/
def CodeOfDescriptor (d : Word) (code : Byte) : Prop :=
  code = 0x01 ∧ (∃ i, decode d = .ok i) ∨
  code = 0x02 ∧ decode d = .ok .fdec ∨
  code = 0x03 ∧ (∃ cat cmd, decode d = .ok (.ackchk cat cmd)) ∨
  code = 0x04 ∧ decode d = .ok .fdec ∨
  code = 0x05 ∧ (∃ wide, decode d = .ok (.imgu wide)) ∨
  code = 0x06 ∧ decode d = .ok .otpv ∨
  code = 0x07 ∧ (∃ e, decode d = .error e) ∨
  code = 0x08 ∧ (∃ i, decode d = .ok i ∧ ∀ cat cmd, i ≠ .ackchk cat cmd) ∨
  code = 0x09 ∧ (∃ cat cmd calcBit pad, decode d = .ok (.fenc cat cmd calcBit pad))

theorem codeOfDescriptor_of_endsWith {d : Word} {i : Instr} {c : StatusCode} (hd : decode d = .ok i)
    (h : EndsWith i c) : CodeOfDescriptor d (statusByte c) := by
  unfold CodeOfDescriptor
  rcases h with rfl | hp | ⟨rfl, rfl⟩ | ⟨⟨cat, cmd, rfl⟩, rfl⟩
  · exact .inl ⟨rfl, i, hd⟩
  · rcases raisesPlain_cases hp with ⟨rfl, hi⟩ | ⟨rfl, cat, cmd, calcBit, pad, rfl⟩ | ⟨rfl, rfl⟩ |
      ⟨rfl, wide, rfl⟩ | ⟨rfl, rfl⟩
    · simpa [statusByte, hd] using hi
    · simp [statusByte, hd]
    · simp [statusByte, hd]
    · simp [statusByte, hd]
    · simp [statusByte, hd]
  · simp [statusByte, hd]
  · simp [statusByte, hd]

/-- Settles O37. -/
theorem everyOperationEndsWithOneStatus : Obligations.EveryOperationEndsWithOneStatus := by
  have coded : ∀ {d : Word} {c : StatusCode} {w : Word}, w = statusWord (d.extractLsb' 0 8) c →
      CodeOfDescriptor d (statusByte c) → statusLastOp w = d.extractLsb' 0 8 ∧
        w.extractLsb' 16 16 = 0 ∧ CodeOfDescriptor d (statusCodeField w) := by
    rintro d c w rfl h
    exact ⟨statusLastOp_statusWord .., statusWord_reserved .., by rwa [statusCodeField_statusWord]⟩
  refine ⟨rfl, fun s t h rest hp hw hr ht => ?_, fun s t d rest hp ht => ?_⟩
  · rw [step_of_pending_cons hp] at ht
    exact (hostStep_effect ht).status_eq hw hr
  · rcases step_descWrite_next hp ht with ⟨i, hd, he⟩ | ⟨e, hd, rfl⟩
    · obtain ⟨c, hc, hst⟩ := he.status
      exact coded hst (codeOfDescriptor_of_endsWith hd hc)
    · exact coded (c := .illegalOperation) rfl (by simp [CodeOfDescriptor, statusByte, hd])

/-- Settles O38: `Ending.out` says what was written, for each operation and for an error. -/
theorem outLenCountsTheOutput : Obligations.OutLenCountsTheOutput := by
  refine ⟨rfl, fun s t d rest hp ht => ?_⟩
  rcases step_descWrite_next hp ht with ⟨i, hd, he⟩ | ⟨e, hd, rfl⟩
  · refine ⟨fun j hj => ?_, fun e hj => ?_, fun hno => ?_, fun hne => ?_⟩
    · obtain rfl : i = j := Except.ok.inj (hd.symm.trans hj)
      refine ⟨fun hb => ?_, fun a ha => he.held_of_lt ha, fun a ha => he.read?_outMem_of_le ha⟩
      rw [he.outLen_eq]
      exact outLenWord_toNat _ _ hb
    · rw [hd] at hj; cases hj
    · refine he.outLen_eq_zero (bytesWritten_of_no_output ?_)
      rw [hd] at hno
      rcases hno with hi | hi | ⟨cat, cmd, hi⟩ <;> cases hi <;> rfl
    · exact he.outLen_eq_zero (bytesWritten_of_ne_ok hne)
  · refine ⟨fun j hj => ?_, fun _ _ => rfl, fun _ => rfl, fun _ => rfl⟩
    rw [hd] at hj; cases hj

/-- Settles O1. -/
theorem resetLeavesTheStatedState : Obligations.ResetLeavesTheStatedState := by
  have hm : ∀ m a, (State.reset.mem m).read? a = none := fun m _ => by cases m <;> rfl
  refine ⟨rfl, rfl, rfl, rfl, fun r h4 h8 => hostReadReg_of_none h8 ?_, hm,
    fun m a ha => hostReadMem_of_none ha (hm m a)⟩
  match r, h4, h8 with
  | 4, _, _ | 5, _, _ | 6, _, _ | 7, _, _ | 8, _, _ => rfl

/-- Reading a table word is decoding its low bits, where it answers. -/
theorem decode_of_decodeTableWord {nbits w : Nat} {i : Instr} (h : decodeTableWord nbits w = some i) :
    decode (BitVec.ofNat 32 (w % 2 ^ nbits)) = .ok i := by
  unfold decodeTableWord at h
  split at h
  · split at h
    next hd => cases h; exact hd
    next => cases h
  · cases h

/-- Settles O3. -/
theorem stepRunsTheDecodedOperation : Obligations.StepRunsTheDecodedOperation :=
  ⟨fun _ _ _ _ hp hd => step_descWrite_legal hp hd,
    fun _ _ _ _ h => step_descWrite_legal rfl (decode_of_decodeTableWord h)⟩

end Sys2Proof.Machine

/-! PROOF. The statements about memory access and ordering (20_memory.md): what the host reads after a
write, that reads have no side effects, that an operation is determined by what it reads. First the rules
they share, then the statements. -/

namespace Sys2Proof.Machine

/-! ### Host accesses to memories -/

/-- A host write inside a memory (R47). -/
theorem hostWriteMem_of_lt {p : Params} {m : MemId} {a : Nat} (b : Byte) (s : State)
    (ha : a < capacity p m) :
    hostWriteMem p m a b s = .next (s.setMem m ((s.mem m).write a b)) := if_pos ha

/-- A host read of a byte that holds a value observes it (R47, R53). -/
theorem hostReadMem_of_some {p : Params} {m : MemId} {a : Nat} {b : Byte} {s : State}
    (ha : a < capacity p m) (h : (s.mem m).read? a = some b) :
    hostReadMem p m a s = .next (s.observe (.byte b)) := by
  simp only [hostReadMem, if_pos ha, readByte, h, withRead_ok]

@[simp] theorem State.mem_setPending (s : State) (steps : List HostStep) (m : MemId) :
    (s.setPending steps).mem m = s.mem m := by
  cases m <;> rfl

/-- Which host steps are pending makes no difference to the unit. -/
theorem unitOf_setMem_setPending (s : State) (steps : List HostStep) (m : MemId) (x : Memory) :
    unitOf ((s.setPending steps).setMem m x) = unitOf (s.setMem m x) := by
  cases m <;> rfl

/-- A register read changes nothing in the unit (R49). -/
theorem HostEffect.unitOf_eq_of_readReg {s t : State} {r : Nat} (h : HostEffect s (.readReg r) t) :
    unitOf t = unitOf s := by
  cases h; rfl

/-- A memory read changes nothing in the unit (R49). -/
theorem HostEffect.unitOf_eq_of_readMem {s t : State} {m : MemId} {a : Nat}
    (h : HostEffect s (.readMem m a) t) : unitOf t = unitOf s := by
  cases h; rfl

/-- Only an operation and a reset change OUT_LEN and the result registers (R25, R26–R30). -/
theorem HostEffect.results_eq {s t : State} {h : HostStep} (he : HostEffect s h t)
    (hw : ∀ d, h ≠ .writeReg 0 d) (hr : h ≠ .reset) :
    t.outLen = s.outLen ∧ t.csumRes = s.csumRes ∧ t.decHdr = s.decHdr ∧ t.errCsum = s.errCsum ∧
      t.ackRsn = s.ackRsn ∧ t.otpRes = s.otpRes := by
  cases he with
  | started d => exact absurd rfl (hw d)
  | reset => exact absurd rfl hr
  | length | ignored | readReg | readMem => exact ⟨rfl, rfl, rfl, rfl, rfl, rfl⟩
  | writeMem m a b => simp

/-! ### What an operation writes, apart from the state it is written to -/

/-- What an operation that ends writes (R24–R30, R34): a status code, a count for OUT_LEN, bytes of OUT
from index 0 up, and the result registers that are not `none`. -/
structure Writes where
  code : StatusCode
  count : Nat := 0
  out : List Byte := []
  csumRes : Option Word := none
  decHdr : Option Word := none
  errCsum : Option Word := none
  ackRsn : Option Word := none
  otpRes : Option Word := none

/-- The state `s` after the writes `w` of an operation. -/
def Writes.apply (w : Writes) (s : State) : State :=
  { s with
    status := statusWord (s.desc.extractLsb' 0 8) w.code
    outLen := outLenWord s.desc s.inLen w.count
    outMem := s.outMem.writeBytes 0 w.out
    csumRes := w.csumRes.or s.csumRes
    decHdr := w.decHdr.or s.decHdr
    errCsum := w.errCsum.or s.errCsum
    ackRsn := w.ackRsn.or s.ackRsn
    otpRes := w.otpRes.or s.otpRes }

/-- Writing the same bytes to the same indices again changes nothing. -/
theorem Memory.writeBytes_writeBytes_self {m : Memory} (h : m.wf = true) (bs : List Byte) :
    (m.writeBytes 0 bs).writeBytes 0 bs = m.writeBytes 0 bs := by
  have hw := Memory.wf_writeBytes m 0 bs h
  refine Memory.ext_of_wf (Memory.wf_writeBytes _ 0 bs hw) hw fun a => ?_
  rw [Memory.read?_writeBytes_zero]
  split
  next ha => rw [Memory.read?_writeBytes_zero, if_pos ha]
  next => rfl

/-- The same writes a second time change nothing, on an OUT in canonical form (R50). -/
theorem Writes.apply_apply (w : Writes) {s : State} (h : s.outMem.wf = true) :
    w.apply (w.apply s) = w.apply s := by
  simp [Writes.apply, Memory.writeBytes_writeBytes_self h, ← Option.or_assoc]

/-- A register that two states are given by one write: written in both alike, or kept by both. -/
theorem or_eq_or_kept (w x y : Option Word) : w.or y = w.or x ∨ w.or x = x ∧ w.or y = y := by
  cases w with
  | some v => exact .inl rfl
  | none => exact .inr ⟨rfl, rfl⟩

/-! ### What an operation reads determines what it writes -/

/-- `s'` agrees with `s` on all that an operation started in `s` can read: DESC, IN_LEN, the bytes of IN
below IN_LEN, and TABLE (R50). -/
structure SameInputs (s s' : State) : Prop where
  desc : s'.desc = s.desc
  inLen : s'.inLen = s.inLen
  input : ∀ a, a < inputLength s → s'.inMem.read? a = s.inMem.read? a
  table : ∀ a, a < tableSize → s'.table.read? a = s.table.read? a

section SameInputs

variable {s s' : State}

theorem SameInputs.refl (s : State) : SameInputs s s := ⟨rfl, rfl, fun _ _ => rfl, fun _ _ => rfl⟩

/-- No operation writes what an operation reads. -/
theorem SameInputs.apply (w : Writes) (s : State) : SameInputs s (w.apply s) :=
  ⟨rfl, rfl, fun _ _ => rfl, fun _ _ => rfl⟩

/-- No operation reads OUT. -/
theorem SameInputs.setMem_out (s : State) (x : Memory) : SameInputs s (s.setMem .out x) :=
  ⟨rfl, rfl, fun _ _ => rfl, fun _ _ => rfl⟩

variable (h : SameInputs s s')
include h

theorem SameInputs.inputLength_eq : inputLength s' = inputLength s :=
  congrArg BitVec.toNat h.inLen

theorem SameInputs.readInBytes_eq {a n : Nat} (hn : a + n ≤ inputLength s) :
    readInBytes s' a n = readInBytes s a n :=
  readBytes_congr _ _ _ _ _ fun j hj => h.input (a + j) (by omega)

theorem SameInputs.readInput_eq :
    readInBytes s' 0 (inputLength s') = readInBytes s 0 (inputLength s) := by
  rw [h.inputLength_eq]
  exact h.readInBytes_eq (by omega)

/-- FDTB reads whole words, none beyond the input (R112, R113). -/
theorem SameInputs.readFdtWords_eq :
    readInBytes s' 0 (fdtTotal (inputLength s')) = readInBytes s 0 (fdtTotal (inputLength s)) := by
  rw [h.inputLength_eq]
  exact h.readInBytes_eq (by simp only [fdtTotal]; omega)

theorem SameInputs.readIn_eq {a : Nat} (ha : a < inputLength s) : readIn s' a = readIn s a := by
  simp only [readIn, readByte, h.input a ha]

theorem SameInputs.readTable_eq : readTable s' = readTable s := by
  funext x
  simp only [readTable, readByte, h.table x.toNat x.isLt]

end SameInputs

/-- On every state that agrees with `s` on an operation's inputs, `f` ends with the same writes, or on
each of them with the same fault. -/
def WritesFixed (s : State) (f : State → Result) : Prop :=
  (∃ w : Writes, ∀ s', SameInputs s s' → f s' = .next (w.apply s')) ∨
  ∃ e, ∀ s', SameInputs s s' → f s' = .fault e

section WritesFixed

variable {p : Params} {s : State}

theorem writesFixed_raise (c : StatusCode) : WritesFixed s (raise c) :=
  .inl ⟨{ code := c }, fun _ _ => rfl⟩

/-- `g` may stand for `f` where they answer alike on the states that agree with `s`. -/
theorem WritesFixed.congr {f g : State → Result} (hf : WritesFixed s f)
    (he : ∀ s', SameInputs s s' → g s' = f s') : WritesFixed s g :=
  hf.imp (fun ⟨w, hw⟩ => ⟨w, fun s' h => (he s' h).trans (hw s' h)⟩)
    (fun ⟨e, hfault⟩ => ⟨e, fun s' h => (he s' h).trans (hfault s' h)⟩)

theorem writesFixed_ite {c : State → Prop} [DecidablePred c] {f g : State → Result}
    (hc : ∀ s', SameInputs s s' → (c s' ↔ c s)) (hf : c s → WritesFixed s f)
    (hg : ¬ c s → WritesFixed s g) : WritesFixed s fun s' => if c s' then f s' else g s' := by
  by_cases h : c s
  · exact (hf h).congr fun s' hs => if_pos ((hc s' hs).2 h)
  · exact (hg h).congr fun s' hs => if_neg (mt (hc s' hs).1 h)

/-- A check of the input's length alone. -/
theorem writesFixed_checkLength {c : Nat → Prop} [DecidablePred c] {f g : State → Result}
    (hf : c (inputLength s) → WritesFixed s f) (hg : ¬ c (inputLength s) → WritesFixed s g) :
    WritesFixed s fun s' => if c (inputLength s') then f s' else g s' :=
  writesFixed_ite (c := fun s' => c (inputLength s')) (fun _ h => by rw [h.inputLength_eq]) hf hg

theorem writesFixed_checkInput {k : State → Result}
    (hk : inputLength s ≤ p.inCap → WritesFixed s k) :
    WritesFixed s fun s' => checkInput p s' (k s') :=
  writesFixed_checkLength (c := (p.inCap < ·)) (fun _ => writesFixed_raise .capacity)
    fun h => hk (by omega)

theorem writesFixed_withRead {α : Type} {r : State → Except Fault α} {k : α → State → Result}
    (hr : ∀ s', SameInputs s s' → r s' = r s) (hk : ∀ v, WritesFixed s (k v)) :
    WritesFixed s fun s' => withRead (r s') fun v => k v s' := by
  cases hs : r s with
  | ok v => exact (hk v).congr fun s' h => by simp only [hr s' h, hs, withRead_ok]
  | error e => exact .inr ⟨e, fun s' h => by simp only [hr s' h, hs, withRead_error]⟩

theorem runCsum_writesFixed : WritesFixed s (runCsum p) :=
  writesFixed_checkInput fun _ =>
    writesFixed_withRead (fun _ h => h.readInput_eq) fun bs =>
      .inl ⟨{ code := .ok, csumRes := some (csumResWord (checksum bs)) }, fun _ _ => rfl⟩

theorem runFenc_writesFixed {cat : Category} {cmd : Command} {calcBit pad : Bool} :
    WritesFixed s (runFenc p cat cmd calcBit pad) :=
  writesFixed_checkInput fun _ =>
    writesFixed_checkLength (c := (maxPayload < ·)) (fun _ => writesFixed_raise _) fun _ =>
      writesFixed_withRead (fun _ h => h.readInput_eq) fun pl =>
        writesFixed_checkLength (c := (p.outCap < frameTotal p · pad)) (fun _ => writesFixed_raise _)
          fun _ => .inl
            ⟨{ code := .ok, count := frameTotal p (inputLength s) pad,
               out := padFrame (encodeFrame cat cmd pl calcBit) (frameTotal p (inputLength s) pad) },
              fun _ h => by simp only [h.inputLength_eq]; rfl⟩

theorem deliverPayload_writesFixed {b0 : Byte} {declared : Half} {skipped : Bool}
    (hd : dataSpan declared ≤ inputLength s) :
    WritesFixed s (deliverPayload p b0 declared skipped) :=
  writesFixed_ite (fun _ _ => Iff.rfl) (fun _ => writesFixed_raise _) fun _ =>
    writesFixed_withRead (fun _ h => h.readInBytes_eq hd) fun pl =>
      .inl ⟨{ code := .ok, count := payloadLength declared, out := pl,
              decHdr := some (decHdrWord b0 skipped declared) }, fun _ _ => rfl⟩

/-- FDEC's checksum step reads the data span and the checksum byte, both below IN_LEN (R88, R89). -/
theorem verifyFrame_writesFixed {b0 : Byte} {declared : Half}
    (hd : dataSpan declared < inputLength s) : WritesFixed s (verifyFrame p b0 declared) :=
  writesFixed_withRead (fun _ h => h.readIn_eq hd) fun rcv =>
    writesFixed_ite (fun _ _ => Iff.rfl) (fun _ => deliverPayload_writesFixed (by omega)) fun _ =>
      writesFixed_withRead (fun _ h => h.readInBytes_eq (by omega)) fun body =>
        writesFixed_ite (fun _ _ => Iff.rfl) (fun _ => deliverPayload_writesFixed (by omega)) fun _ =>
          .inl ⟨{ code := .checksumMismatch, errCsum := some (errCsumWord (checksum body) rcv) },
            fun _ _ => rfl⟩

theorem runFdec_writesFixed : WritesFixed s (runFdec p) :=
  writesFixed_checkInput fun _ =>
    writesFixed_checkLength (c := (· < hdrSize)) (fun _ => writesFixed_raise _) fun hl =>
      writesFixed_withRead (fun _ h => h.readInBytes_eq (by omega)) fun hdr =>
        writesFixed_ite (fun _ _ => Iff.rfl) (fun _ => writesFixed_raise _) fun _ =>
          writesFixed_checkLength
            (c := (· < dataSpan (halfOfBytes (hdr.getD 1 0) (hdr.getD 2 0)) + 1))
            (fun _ => writesFixed_raise _) fun hs => verifyFrame_writesFixed (by omega)

theorem execAckchk_writesFixed {cat : Category} {cmd : Command} :
    WritesFixed s (execAckchk cat cmd) :=
  .inl ⟨{ code := if cat = ackCategory ∧ cmd = ackCommand then .ok else .invalidAck,
          ackRsn := some (ackRsnWord (cat != ackCategory) (cmd != ackCommand)) },
    fun s' _ => execAckchk_eq cat cmd s'⟩

theorem runOtpv_writesFixed : WritesFixed s (runOtpv p) :=
  writesFixed_checkInput fun _ =>
    writesFixed_checkLength (c := (· < otpHashOffset + 1)) (fun _ => writesFixed_raise _) fun _ =>
      writesFixed_withRead (fun _ h => h.readInput_eq) fun o =>
        writesFixed_withRead (fun _ h => by rw [h.readTable_eq]) fun st =>
          .inl ⟨{ code := .ok, otpRes := some (otpResWord (o.getD otpHashOffset 0) (~~~ st)) },
            fun _ _ => rfl⟩

theorem runImgu_writesFixed {wide : Bool} : WritesFixed s (runImgu p wide) :=
  writesFixed_checkInput fun _ =>
    writesFixed_checkLength (c := (· % chunkIn ≠ 0)) (fun _ => writesFixed_raise _) fun _ =>
      writesFixed_checkLength (c := (p.outCap < imageTotal · wide)) (fun _ => writesFixed_raise _)
        fun _ => writesFixed_withRead (fun _ h => h.readInput_eq) fun stream =>
          .inl ⟨{ code := .ok, count := imageTotal (inputLength s) wide,
                  out := imageBytes wide stream }, fun _ h => by simp only [h.inputLength_eq]; rfl⟩

theorem runFdtb_writesFixed : WritesFixed s (runFdtb p) :=
  writesFixed_checkInput fun _ =>
    writesFixed_checkLength (c := (p.outCap < fdtTotal ·)) (fun _ => writesFixed_raise _) fun _ =>
      writesFixed_withRead (fun _ h => h.readFdtWords_eq) fun raw =>
        .inl ⟨{ code := .ok, count := fdtTotal (inputLength s), out := fdtBytes raw },
          fun _ h => by simp only [h.inputLength_eq]; rfl⟩

end WritesFixed

/-- What an operation reads determines what it writes (R50). -/
theorem exec_writesFixed (i : Instr) (s : State) : WritesFixed s (exec i) := by
  cases i with
  | csum => exact runCsum_writesFixed
  | fenc => exact runFenc_writesFixed
  | fdec => exact runFdec_writesFixed
  | ackchk => exact execAckchk_writesFixed
  | otpv => exact runOtpv_writesFixed
  | imgu => exact runImgu_writesFixed
  | fdtb => exact runFdtb_writesFixed

/-- An operation that goes on in `s` goes on with the same writes wherever its inputs are the same. -/
theorem exec_next_writes {i : Instr} {s t : State} (h : exec i s = .next t) :
    ∃ w : Writes, t = w.apply s ∧ ∀ s', SameInputs s s' → exec i s' = .next (w.apply s') := by
  rcases exec_writesFixed i s with ⟨w, hw⟩ | ⟨e, he⟩
  · exact ⟨w, Host.Outcome.next.inj (h.symm.trans (hw s (.refl s))), hw⟩
  · cases h.symm.trans (he s (.refl s))

/-- `bytesWritten` counts no more than the bytes written: started on an empty OUT, an operation leaves
no other byte there. -/
theorem bytesWritten_le_length {i : Instr} {s : State} {w : Writes}
    (hw : ∀ s', SameInputs s s' → exec i s' = .next (w.apply s')) :
    bytesWritten i s (w.apply s) ≤ w.out.length := by
  have he := exec_ending (hw _ (.setMem_out s []))
  have hb : bytesWritten i (s.setMem .out []) (w.apply (s.setMem .out [])) =
      bytesWritten i s (w.apply s) := by cases i <;> rfl
  by_contra hlt
  have hsome := (he.held_of_lt (a := w.out.length) (by omega)).2
  have hnone : (w.apply (s.setMem .out [])).outMem.read? w.out.length = none :=
    (Memory.read?_writeBytes_zero [] w.out w.out.length).trans (if_neg (Nat.lt_irrefl _))
  rw [hnone] at hsome
  cases hsome

/-! ### The statements -/

/-- Settles O39: an operation's inputs fix its writes, and the same writes twice are the writes once. -/
theorem operationsAreDeterministicAndIdempotent :
    Obligations.OperationsAreDeterministicAndIdempotent := by
  refine ⟨fun i s s' t hd hl hi ht h => ?_, fun i s t hwf h => ?_⟩
  · obtain ⟨w, rfl, hw⟩ := exec_next_writes h
    have hs : SameInputs s s' :=
      ⟨hd.symm, hl.symm, fun a ha => (hi a ha).symm, fun a ha => (ht a ha).symm⟩
    refine ⟨_, hw s' hs, ?_, ?_, fun a ha => ?_, or_eq_or_kept .., or_eq_or_kept ..,
      or_eq_or_kept .., or_eq_or_kept .., or_eq_or_kept ..⟩
    · simp only [Writes.apply, hd]
    · simp only [Writes.apply, hd, hl]
    · have hlt := Nat.lt_of_lt_of_le ha (bytesWritten_le_length hw)
      simp only [Writes.apply, Memory.read?_writeBytes_zero, if_pos hlt]
  · obtain ⟨w, rfl, hw⟩ := exec_next_writes h
    rw [hw _ (.apply w s), w.apply_apply hwf]

/-- Settles O7: `Memory.read?_write` says what a read sees after the write. -/
theorem memoryReadsSeeTheLatestWrite : Obligations.MemoryReadsSeeTheLatestWrite := by
  intro s rest m a ha
  refine ⟨fun b hp => ?_, fun b hp hb => ?_, fun hp hn => ?_⟩ <;> rw [step_of_pending_cons hp]
  · refine ⟨_, hostWriteMem_of_lt b _ ha, by simp, ?_, fun c => ?_⟩
    · rw [State.mem_setMem, if_pos rfl]
      exact unitOf_setMem_setPending ..
    · rw [State.mem_setMem, if_pos rfl, State.mem_setPending]
      exact Memory.read?_write ..
  · exact ⟨_, hostReadMem_of_some (s := s.setPending rest) ha (by simpa using hb), rfl, rfl⟩
  · exact hostReadMem_of_none (s := s.setPending rest) ha (by simpa using hn)

/-- Settles O8: by the effect of a host step, and the frame of an operation. -/
theorem readsHaveNoSideEffects : Obligations.ReadsHaveNoSideEffects := by
  refine ⟨fun s t rest r hp h => ?_, fun s t rest m a hp h => ?_, fun i s t h => ?_,
    fun s t x rest hp hw hr h => ?_⟩
  · rw [step_of_pending_cons hp] at h
    exact (hostStep_effect h).unitOf_eq_of_readReg
  · rw [step_of_pending_cons hp] at h
    exact (hostStep_effect h).unitOf_eq_of_readMem
  · obtain ⟨-, -, hin, htable, -, -⟩ := (exec_ending h).frame
    exact ⟨hin, htable⟩
  · rw [step_of_pending_cons hp] at h
    have he := hostStep_effect h
    exact ⟨he.status_eq hw hr, he.results_eq hw hr⟩

end Sys2Proof.Machine

/-! PROOF. The statements about the encoding (30_encoding.md): the descriptor's fields and the rows of
R60's table, the assembler, and the text of a line. First the rules they share, then the statements. -/

namespace Sys2Proof.Machine

/-! ### The fields of a descriptor -/

/-- `BitVec.ofNat` commutes with a shift to the left. -/
theorem ofNat_shiftLeft (w n k : Nat) : BitVec.ofNat w (n <<< k) = BitVec.ofNat w n <<< k := by
  apply BitVec.eq_of_toNat_eq
  rw [BitVec.toNat_shiftLeft, BitVec.toNat_ofNat, BitVec.toNat_ofNat, Nat.shiftLeft_eq, Nat.shiftLeft_eq,
    Nat.mod_mul_mod]

/-- A descriptor as R58 lays its fields out, on natural numbers. -/
theorem descriptor_eq_ofNat (op : Byte) (cat : Category) (cmd : Command) (calcBit pad wide : Bool) :
    descriptor op cat cmd calcBit pad wide =
      BitVec.ofNat 32 (op.toNat ||| cat.toNat <<< 8 ||| cmd.toNat <<< 12 ||| calcBit.toNat <<< 16 |||
        pad.toNat <<< 17 ||| wide.toNat <<< 18) := by
  simp only [descriptor, BitVec.ofNat_or, ofNat_shiftLeft, ← ofBool_toNat, BitVec.ofNat_toNat]

/-- A descriptor as the sum of its fields (R58). -/
theorem descriptor_toNat (op : Byte) (cat : Category) (cmd : Command) (calcBit pad wide : Bool) :
    (descriptor op cat cmd calcBit pad wide).toNat =
      op.toNat + cat.toNat * 256 + cmd.toNat * 4096 + calcBit.toNat * 65536 + pad.toNat * 131072 +
        wide.toNat * 262144 := by
  have := op.isLt
  have := cat.isLt
  have := cmd.isLt
  have := toNat_bool_lt calcBit
  have := toNat_bool_lt pad
  have := toNat_bool_lt wide
  rw [descriptor_eq_ofNat, or_shiftLeft_eq_add _ _ 8 (by omega), or_shiftLeft_eq_add _ _ 12 (by omega),
    or_shiftLeft_eq_add _ _ 16 (by omega), or_shiftLeft_eq_add _ _ 17 (by omega),
    or_shiftLeft_eq_add _ _ 18 (by omega), BitVec.toNat_ofNat, Nat.mod_eq_of_lt (by omega)]
  omega

section Fields

variable (op : Byte) (cat : Category) (cmd : Command) (calcBit pad wide : Bool)

@[simp] theorem descOp_descriptor : descOp (descriptor op cat cmd calcBit pad wide) = op := by
  refine field_eq _ 0 0 (cat.toNat + 16 * cmd.toNat + 256 * calcBit.toNat + 512 * pad.toNat +
    1024 * wide.toNat) ?_ (by decide)
  rw [descriptor_toNat]; omega

@[simp] theorem descCat_descriptor : descCat (descriptor op cat cmd calcBit pad wide) = cat := by
  have := op.isLt
  refine field_eq _ 8 op.toNat (cmd.toNat + 16 * calcBit.toNat + 32 * pad.toNat + 64 * wide.toNat)
    ?_ (by omega)
  rw [descriptor_toNat]; omega

@[simp] theorem descCmd_descriptor : descCmd (descriptor op cat cmd calcBit pad wide) = cmd := by
  have := op.isLt
  have := cat.isLt
  refine field_eq _ 12 (op.toNat + 256 * cat.toNat) (2 * calcBit.toNat + 4 * pad.toNat + 8 * wide.toNat)
    ?_ (by omega)
  rw [descriptor_toNat]; omega

@[simp] theorem descCalc_descriptor : descCalc (descriptor op cat cmd calcBit pad wide) = calcBit := by
  have := op.isLt
  have := cat.isLt
  have := cmd.isLt
  refine bit_eq _ 16 (op.toNat + 256 * cat.toNat + 4096 * cmd.toNat) (pad.toNat + 2 * wide.toNat)
    ?_ (by omega)
  rw [descriptor_toNat]; omega

@[simp] theorem descPad_descriptor : descPad (descriptor op cat cmd calcBit pad wide) = pad := by
  have := op.isLt
  have := cat.isLt
  have := cmd.isLt
  have := toNat_bool_lt calcBit
  refine bit_eq _ 17 (op.toNat + 256 * cat.toNat + 4096 * cmd.toNat + 65536 * calcBit.toNat) wide.toNat
    ?_ (by omega)
  rw [descriptor_toNat]; omega

@[simp] theorem descWide_descriptor : descWide (descriptor op cat cmd calcBit pad wide) = wide := by
  have := op.isLt
  have := cat.isLt
  have := cmd.isLt
  have := toNat_bool_lt calcBit
  have := toNat_bool_lt pad
  refine bit_eq _ 18 (op.toNat + 256 * cat.toNat + 4096 * cmd.toNat + 65536 * calcBit.toNat +
    131072 * pad.toNat) 0 ?_ (by omega)
  rw [descriptor_toNat]; omega

end Fields

/-- A field taken from a word and put back in its place is the word under the field's mask. -/
theorem shiftLeft_extractLsb' (d : Word) (lo len : Nat) :
    (d.extractLsb' lo len).setWidth 32 <<< lo = d &&& ((BitVec.allOnes len).setWidth 32 <<< lo) := by
  ext i hi
  by_cases h : i < lo
  · simp [h]
  · have hlo : lo + (i - lo) = i := by omega
    by_cases h' : i - lo < len <;> simp [h, h', hlo, BitVec.getLsbD_eq_getElem hi]

/-- A bit as a field of width 1. -/
theorem ofBool_getLsbD (d : Word) (k : Nat) : BitVec.ofBool (d.getLsbD k) = d.extractLsb' k 1 := by
  rw [BitVec.getLsbD_eq_extractLsb']
  generalize d.extractLsb' k 1 = b
  revert b; decide

theorem shiftLeft_descCat (d : Word) : (descCat d).setWidth 32 <<< 8 = d &&& 0x00000F00 :=
  shiftLeft_extractLsb' d 8 4

theorem shiftLeft_descCmd (d : Word) : (descCmd d).setWidth 32 <<< 12 = d &&& 0x00007000 :=
  shiftLeft_extractLsb' d 12 3

theorem shiftLeft_descCalc (d : Word) :
    (BitVec.ofBool (descCalc d)).setWidth 32 <<< 16 = d &&& 0x00010000 := by
  rw [descCalc, ofBool_getLsbD]; exact shiftLeft_extractLsb' d 16 1

theorem shiftLeft_descPad (d : Word) :
    (BitVec.ofBool (descPad d)).setWidth 32 <<< 17 = d &&& 0x00020000 := by
  rw [descPad, ofBool_getLsbD]; exact shiftLeft_extractLsb' d 17 1

theorem shiftLeft_descWide (d : Word) :
    (BitVec.ofBool (descWide d)).setWidth 32 <<< 18 = d &&& 0x00040000 := by
  rw [descWide, ofBool_getLsbD]; exact shiftLeft_extractLsb' d 18 1

/-! ### The rows of the table -/

/-- A word shows the pattern `p` under the mask `m` exactly when it is `p` and what lies outside `m`. -/
theorem and_eq_iff_or_and_not_eq {d m p : Word} (h : p &&& m = p) :
    d &&& m = p ↔ p ||| (d &&& ~~~m) = d := by
  constructor
  · rintro rfl
    rw [← BitVec.and_or_distrib_left, BitVec.or_not_self, BitVec.and_allOnes]
  · intro hd
    rw [← hd, BitVec.and_or_distrib_right, h, BitVec.and_assoc, BitVec.and_comm _ m, BitVec.and_not_self]
    simp

/-- What a row builds from `d` encodes as the row's match with the operand bits of `d`, those outside
its mask (R60). -/
theorem encode_build {r : DescRow} (h : r ∈ descRows) (d : Word) :
    encode (r.build d) = r.pattern ||| (d &&& ~~~r.mask) := by
  simp only [descRows, List.mem_cons, List.not_mem_nil, or_false] at h
  have hfields : ∀ x m m' : Word, x ||| (d &&& m) ||| (d &&& m') = x ||| (d &&& (m ||| m')) := by
    intro x m m'
    rw [BitVec.or_assoc, ← BitVec.and_or_distrib_left]
  rcases h with rfl | rfl | rfl | rfl | rfl | rfl | rfl <;>
    simp [encode, descriptor, Instr.opCode, shiftLeft_descCat, shiftLeft_descCmd, shiftLeft_descCalc,
      shiftLeft_descPad, shiftLeft_descWide, hfields]

/-- A row selects exactly the descriptors that are the encoding of what it builds from them. -/
theorem selects_iff_encode_build {r : DescRow} (h : r ∈ descRows) (d : Word) :
    d &&& r.mask = r.pattern ↔ encode (r.build d) = d := by
  have hp : r.pattern &&& r.mask = r.pattern := by
    revert r; simp [descRows]
  rw [encode_build h, and_eq_iff_or_and_not_eq hp]

/-- A word is its OP and the bits above it. -/
theorem op_or_and (d : Word) : (descOp d).setWidth 32 ||| (d &&& 0xFFFFFF00) = d := by
  have h : (descOp d).setWidth 32 = d &&& 0x000000FF :=
    (BitVec.shiftLeft_zero _).symm.trans (shiftLeft_extractLsb' d 0 8)
  rw [h, ← BitVec.and_or_distrib_left]
  exact BitVec.and_allOnes

/-- R66's reading of a row: OP is the row's, and the other bits under its mask are 0. -/
theorem selects_iff_op_and_mustBeZero {r : DescRow} (h : r ∈ descRows) (d : Word) :
    d &&& r.mask = r.pattern ↔ descOp d = descOp r.pattern ∧ d &&& (r.mask &&& 0xFFFFFF00) = 0 := by
  obtain ⟨hm, hp⟩ : descOp r.mask = 0xFF ∧ r.pattern &&& 0xFFFFFF00 = 0 := by
    revert r; simp [descRows, descOp]
  have hop : descOp (d &&& r.mask) = descOp d := by
    rw [descOp, BitVec.extractLsb'_and, ← descOp, ← descOp, hm]
    exact BitVec.and_allOnes
  rw [← BitVec.and_assoc]
  constructor
  · intro hd
    exact ⟨by rw [← hd, hop], by rw [hd, hp]⟩
  · rintro ⟨ho, hz⟩
    rw [← op_or_and (d &&& r.mask), ← op_or_and r.pattern, hop, ho, hz, hp]

/-- The rows have operation codes of their own. -/
theorem descRows_ops_pairwise : descRows.Pairwise fun r r' => descOp r.pattern ≠ descOp r'.pattern := by
  decide

/-- At most one element of a list passes a test that no two of them pass together. -/
theorem length_filter_le_one {α : Type} {p : α → Bool} {l : List α}
    (h : l.Pairwise fun a b => ¬ (p a = true ∧ p b = true)) : (l.filter p).length ≤ 1 := by
  have hf := h.filter p
  match hl : l.filter p with
  | [] | [_] => simp
  | a :: b :: t =>
    have hp : ∀ x ∈ a :: b :: t, p x = true := fun x hx => (List.mem_filter.1 (hl ▸ hx)).2
    rw [hl] at hf
    exact absurd ⟨hp a (by simp), hp b (by simp)⟩ (List.rel_of_pairwise_cons hf (by simp))

/-- No descriptor is selected by two rows. -/
theorem descRows_exclusive (d : Word) :
    descRows.Pairwise fun r r' => ¬ (d &&& r.mask = r.pattern ∧ d &&& r'.mask = r'.pattern) := by
  refine descRows_ops_pairwise.imp_of_mem fun hr hr' hne h => ?_
  rw [selects_iff_op_and_mustBeZero hr, selects_iff_op_and_mustBeZero hr'] at h
  obtain ⟨⟨hop, -⟩, hop', -⟩ := h
  exact hne (hop.symm.trans hop')

/-- The loop of R61 answers nothing when no row selects the descriptor. -/
theorem selectRow_eq_none_iff (d : Word) (rs : List DescRow) :
    selectRow d rs = none ↔ ∀ r ∈ rs, d &&& r.mask ≠ r.pattern := by
  induction rs with
  | nil => simp [selectRow]
  | cons r rs ih => by_cases h : d &&& r.mask = r.pattern <;> simp [selectRow, h, ih]

/-- What the loop of R61 answers comes from a row that selects the descriptor. -/
theorem exists_of_selectRow_eq_some {d : Word} {rs : List DescRow} {i : Instr}
    (h : selectRow d rs = some i) : ∃ r ∈ rs, d &&& r.mask = r.pattern ∧ r.build d = i := by
  induction rs with
  | nil => simp [selectRow] at h
  | cons r rs ih =>
    by_cases hr : d &&& r.mask = r.pattern
    · rw [selectRow, if_pos hr] at h
      exact ⟨r, List.mem_cons_self, hr, Option.some.inj h⟩
    · rw [selectRow, if_neg hr] at h
      obtain ⟨r', hm, h'⟩ := ih h
      exact ⟨r', List.mem_cons_of_mem _ hm, h'⟩

/-- Where the rows exclude each other, the loop answers from the row that selects the descriptor. -/
theorem selectRow_of_mem {d : Word} {rs : List DescRow} {r : DescRow}
    (hx : rs.Pairwise fun r r' => ¬ (d &&& r.mask = r.pattern ∧ d &&& r'.mask = r'.pattern))
    (hm : r ∈ rs) (h : d &&& r.mask = r.pattern) : selectRow d rs = some (r.build d) := by
  induction hx with
  | nil => cases hm
  | cons hne _ ih =>
    rcases List.mem_cons.1 hm with rfl | hm
    · rw [selectRow, if_pos h]
    · rw [selectRow, if_neg fun h' => hne r hm ⟨h', h⟩]
      exact ih hm

/-- A legal descriptor is one that a row selects, and decodes to what that row builds (R61). -/
theorem decode_eq_ok_iff (d : Word) (i : Instr) :
    decode d = .ok i ↔ ∃ r ∈ descRows, d &&& r.mask = r.pattern ∧ r.build d = i := by
  unfold decode
  constructor
  · intro h
    cases hs : selectRow d descRows with
    | some j => rw [hs] at h; cases h; exact exists_of_selectRow_eq_some hs
    | none => rw [hs] at h; cases h
  · rintro ⟨r, hm, hr, rfl⟩
    rw [selectRow_of_mem (descRows_exclusive d) hm hr]

/-- A row that selects the descriptor gives its operation. -/
theorem decode_of_row {d : Word} (k : Nat) (hk : k < descRows.length := by decide)
    (h : d &&& descRows[k].mask = descRows[k].pattern) : decode d = .ok (descRows[k].build d) :=
  (decode_eq_ok_iff d _).2 ⟨_, List.getElem_mem _, h, rfl⟩

/-- An illegal descriptor is one that no row selects (R61). -/
theorem decode_eq_error_iff (d : Word) :
    (∃ e, decode d = .error e) ↔ ∀ r ∈ descRows, d &&& r.mask ≠ r.pattern := by
  rw [← selectRow_eq_none_iff, decode]
  cases selectRow d descRows <;> simp

/-- A row gives an operation back from its encoding, for every operand (R60, R62). -/
theorem exists_build_encode (i : Instr) : ∃ r ∈ descRows, r.build (encode i) = i := by
  cases i with
  | csum | fdec | otpv | fdtb => simp [descRows]
  | fenc cat cmd calcBit pad =>
    simp [descRows, encode, descCat_descriptor, descCmd_descriptor, descCalc_descriptor, descPad_descriptor]
  | ackchk cat cmd => simp [descRows, encode, descCat_descriptor, descCmd_descriptor]
  | imgu wide => simp [descRows, encode, descWide_descriptor]

theorem decode_encode (i : Instr) : decode (encode i) = .ok i := by
  obtain ⟨r, hm, hr⟩ := exists_build_encode i
  exact (decode_eq_ok_iff _ i).2 ⟨r, hm, (selects_iff_encode_build hm _).2 (by rw [hr]), hr⟩

theorem encode_of_decode {d : Word} {i : Instr} (h : decode d = .ok i) : encode i = d := by
  obtain ⟨r, hm, hr, rfl⟩ := (decode_eq_ok_iff d i).1 h
  exact (selects_iff_encode_build hm d).1 hr

/-! ### Illegal descriptors -/

/-- R60's must-be-0 bits, by operation code. -/
def mustBeZero : List (Byte × Word) :=
  [(0x01, 0xFFFFFF00), (0x02, 0xFFFC8000), (0x03, 0xFFFFFF00), (0x04, 0xFFFF8000), (0x05, 0xFFFFFF00),
    (0x06, 0xFFFBFF00), (0x07, 0xFFFFFF00)]

/-- The must-be-0 bits of a row are the bits under its mask outside OP. -/
theorem mustBeZero_eq_map :
    mustBeZero = descRows.map fun r => (descOp r.pattern, r.mask &&& 0xFFFFFF00) := by
  decide

theorem mustBeZero_fst_inj : ∀ p ∈ mustBeZero, ∀ q ∈ mustBeZero, p.1 = q.1 → p = q := by
  have hnodup : (mustBeZero.map Prod.fst).Nodup := by decide
  exact fun p hp q hq => List.inj_on_of_nodup_map hnodup hp hq

/-- The assigned operation codes (R59). -/
theorem exists_mem_mustBeZero_iff (op : Byte) :
    (∃ p ∈ mustBeZero, op = p.1) ↔ ¬ (op = 0 ∨ 8 ≤ op.toNat) := by
  have hfst : (∃ p ∈ mustBeZero, op = p.1) ↔ op ∈ mustBeZero.map Prod.fst := by
    simp only [List.mem_map, eq_comm]
  rw [hfst]
  simp only [mustBeZero, List.map, List.mem_cons, List.not_mem_nil, or_false, ← BitVec.toNat_inj,
    BitVec.ofNat_eq_ofNat, BitVec.toNat_ofNat]
  omega

/-- The two cases of R66. -/
theorem decode_eq_error_iff_mustBeZero (d : Word) :
    (∃ e, decode d = .error e) ↔ descOp d = 0 ∨ 8 ≤ (descOp d).toNat ∨
      ∃ p ∈ mustBeZero, descOp d = p.1 ∧ d &&& p.2 ≠ 0 := by
  have hrows : (∀ r ∈ descRows, d &&& r.mask ≠ r.pattern) ↔
      ∀ p ∈ mustBeZero, descOp d = p.1 → d &&& p.2 ≠ 0 := by
    rw [mustBeZero_eq_map, List.forall_mem_map]
    refine forall₂_congr fun r hr => ?_
    rw [ne_eq, selects_iff_op_and_mustBeZero hr, not_and]
  rw [decode_eq_error_iff, hrows, ← or_assoc]
  by_cases ha : descOp d = 0 ∨ 8 ≤ (descOp d).toNat
  · have hno := mt (exists_mem_mustBeZero_iff (descOp d)).1 (not_not.2 ha)
    exact iff_of_true (fun p hp hop => absurd ⟨p, hp, hop⟩ hno) (.inl ha)
  · obtain ⟨p, hp, hop⟩ := (exists_mem_mustBeZero_iff (descOp d)).2 ha
    rw [or_iff_right ha]
    constructor
    · exact fun h => ⟨p, hp, hop, h p hp hop⟩
    · rintro ⟨q, hq, hoq, hz⟩ q' hq' hoq'
      rwa [mustBeZero_fst_inj q' hq' q hq (hoq'.symm.trans hoq)]

theorem statusWord_eq_ofNat (op : Byte) (c : StatusCode) :
    statusWord op c = BitVec.ofNat 32 ((statusByte c).toNat ||| (op.toNat <<< 8)) := by
  have := op.isLt
  have := (statusByte c).isLt
  apply BitVec.eq_of_toNat_eq
  rw [statusWord_toNat, or_shiftLeft_eq_add _ _ 8 (by omega), BitVec.toNat_ofNat]
  omega

/-- An error with STATUS written out (R120). -/
theorem raise_eq_errorState (c : StatusCode) (s : State) : raise c s = .next (Spec.errorState s
    (BitVec.ofNat 32 ((statusByte c).toNat ||| ((s.desc.extractLsb' 0 8).toNat <<< 8)))) := by
  rw [← statusWord_eq_ofNat]; rfl

/-! ### The `cmd` byte -/

/-- The `cmd` byte as R65 writes it. -/
theorem cmdByte_toNat (cat : Category) (cmd : Command) :
    (cmdByte cat cmd).toNat = (cat.toNat <<< 4) ||| (cmd.toNat <<< 1) := by
  have := cat.isLt
  have := cmd.isLt
  simp only [cmdByte, BitVec.toNat_or, BitVec.toNat_shiftLeft, BitVec.toNat_setWidth, Nat.shiftLeft_eq]
  congr 1 <;> omega

/-- The `cmd` byte as the sum of its fields. -/
theorem cmdByte_toNat_add (cat : Category) (cmd : Command) :
    (cmdByte cat cmd).toNat = 2 * cmd.toNat + 16 * cat.toNat := by
  rw [cmdByte_toNat, Nat.or_comm, or_shiftLeft_eq_add _ _ 4 (by omega)]
  omega

/-- The category is bits 7:4 (R65). -/
theorem cmdByteCategory_eq (b : Byte) : cmdByteCategory b = b.extractLsb' 4 4 :=
  BitVec.setWidth_ushiftRight_eq_extractLsb

/-- The command is bits 3:1 (R65). -/
theorem cmdByteCommand_eq (b : Byte) : cmdByteCommand b = b.extractLsb' 1 3 := by
  rw [cmdByteCommand, BitVec.setWidth_ushiftRight_eq_extractLsb, BitVec.extractLsb'_and]
  exact BitVec.and_allOnes

@[simp] theorem cmdByteCategory_cmdByte (cat : Category) (cmd : Command) :
    cmdByteCategory (cmdByte cat cmd) = cat := by
  apply BitVec.eq_of_toNat_eq
  rw [cmdByteCategory_eq, BitVec.extractLsb'_toNat, cmdByte_toNat_add, Nat.shiftRight_eq_div_pow]
  omega

@[simp] theorem cmdByteCommand_cmdByte (cat : Category) (cmd : Command) :
    cmdByteCommand (cmdByte cat cmd) = cmd := by
  apply BitVec.eq_of_toNat_eq
  rw [cmdByteCommand_eq, BitVec.extractLsb'_toNat, cmdByte_toNat_add, Nat.shiftRight_eq_div_pow]
  omega

/-! ### The assembler -/

theorem encode_fenc_eq_ofNat (cat : Category) (cmd : Command) (calcBit pad : Bool) :
    encode (.fenc cat cmd calcBit pad) = BitVec.ofNat 32 (0x00000002 ||| (cat.toNat <<< 8)
      ||| (cmd.toNat <<< 12) ||| (calcBit.toNat <<< 16) ||| (pad.toNat <<< 17)) := by
  rw [encode, descriptor_eq_ofNat, Bool.toNat_false, Nat.zero_shiftLeft, Nat.or_zero]; rfl

theorem encode_ackchk_eq_ofNat (cat : Category) (cmd : Command) :
    encode (.ackchk cat cmd) =
      BitVec.ofNat 32 (0x00000004 ||| (cat.toNat <<< 8) ||| (cmd.toNat <<< 12)) := by
  simp only [encode, descriptor_eq_ofNat, Bool.toNat_false, Nat.zero_shiftLeft, Nat.or_zero]; rfl

theorem assemble_fenc (cat cmd : Nat) (calcBit pad : Bool) : assemble (.fenc cat cmd calcBit pad) =
    if cat < 16 ∧ cmd < 8 then .ok (BitVec.ofNat 32 (0x00000002 ||| (cat <<< 8) ||| (cmd <<< 12)
      ||| (calcBit.toNat <<< 16) ||| (pad.toNat <<< 17))) else .error .outOfRange := by
  by_cases h : cat < 16 ∧ cmd < 8
  · simp only [assemble, AsmLine.wellFormed, asmInstr?, h, encode_fenc_eq_ofNat, BitVec.toNat_ofNat,
      Nat.reducePow, Nat.mod_eq_of_lt h.1, Nat.mod_eq_of_lt h.2]
    simp
  · simp [assemble, AsmLine.wellFormed, h]

theorem assemble_ackchk (cat cmd : Nat) : assemble (.ackchk cat cmd) =
    if cat < 16 ∧ cmd < 8 then .ok (BitVec.ofNat 32 (0x00000004 ||| (cat <<< 8) ||| (cmd <<< 12)))
    else .error .outOfRange := by
  by_cases h : cat < 16 ∧ cmd < 8
  · simp only [assemble, AsmLine.wellFormed, asmInstr?, h, encode_ackchk_eq_ofNat, BitVec.toNat_ofNat,
      Nat.reducePow, Nat.mod_eq_of_lt h.1, Nat.mod_eq_of_lt h.2]
    simp
  · simp [assemble, AsmLine.wellFormed, h]

theorem assemble_desc (v : Nat) : assemble (.desc v) =
    if v < 4294967296 then .ok (BitVec.ofNat 32 v) else .error .outOfRange := by
  simp [assemble, AsmLine.wellFormed, asmInstr?, asmValue]

/-- The line of an operation assembles to its descriptor. -/
theorem assemble_asmOfInstr (i : Instr) : assemble (asmOfInstr i) = .ok (encode i) := by
  cases i with
  | fenc cat cmd calcBit pad =>
    rw [asmOfInstr, assemble_fenc, if_pos ⟨cat.isLt, cmd.isLt⟩, encode_fenc_eq_ofNat]
  | ackchk cat cmd =>
    rw [asmOfInstr, assemble_ackchk, if_pos ⟨cat.isLt, cmd.isLt⟩, encode_ackchk_eq_ofNat]
  | csum | fdec | otpv | imgu | fdtb => rfl

/-- Disassembly gives the line of the decoded operation, and it assembles back (R76). -/
theorem assemble_disassemble (d : Word) : assemble (disassemble d) = .ok d := by
  cases hd : decode d with
  | ok i =>
    rw [disassemble, hd]
    exact (assemble_asmOfInstr i).trans (congrArg _ (encode_of_decode hd))
  | error e =>
    rw [disassemble, hd]
    exact (assemble_desc _).trans (by rw [if_pos d.isLt, BitVec.ofNat_toNat, BitVec.setWidth_eq])

/-! ### The text of a line -/

/-- `c` belongs to a word of a line: it is no space, no comma and starts no comment (R74). -/
def InWord (c : Char) : Prop := c ≠ ';' ∧ c ≠ ' ' ∧ c ≠ ','

theorem tokens_append {w : List Char} (hw : ∀ c ∈ w, InWord c) (acc cs : List Char) :
    tokens acc (w ++ cs) = tokens (w.reverse ++ acc) cs := by
  induction w generalizing acc with
  | nil => rfl
  | cons c w ih =>
    obtain ⟨⟨h1, h2, h3⟩, hw⟩ := List.forall_mem_cons.1 hw
    rw [List.cons_append, tokens, if_neg h1, if_neg h2, if_neg h3, ih hw]
    simp

theorem flushWord_reverse {w : List Char} (h : w ≠ []) (ts : List Token) :
    flushWord (w.reverse ++ []) ts = .word w :: ts := by
  simp [flushWord, h]

/-- A word of a line, at a space. -/
theorem tokens_word_space {w : List Char} (h : w ≠ []) (hw : ∀ c ∈ w, InWord c) (cs : List Char) :
    tokens [] (w ++ ' ' :: cs) = .word w :: tokens [] cs := by
  rw [tokens_append hw, tokens, if_neg (by decide), if_pos rfl, flushWord_reverse h]

/-- A word of a line, at a comma. -/
theorem tokens_word_comma {w : List Char} (h : w ≠ []) (hw : ∀ c ∈ w, InWord c) (cs : List Char) :
    tokens [] (w ++ ',' :: cs) = .word w :: .comma :: tokens [] cs := by
  rw [tokens_append hw, tokens, if_neg (by decide), if_neg (by decide), if_pos rfl, flushWord_reverse h]

theorem tokens_space (cs : List Char) : tokens [] (' ' :: cs) = tokens [] cs := rfl

theorem inWord_hexDigit (n : Nat) : InWord (hexDigit (n % 16)) := by
  have hdigit : ∀ m < 16, InWord (hexDigit m) := by unfold InWord; decide
  exact hdigit _ (Nat.mod_lt _ (by decide))

/-- The text of one hexadecimal digit reads back as the number (R73). -/
theorem number?_hexText_one {n : Nat} (h : n < 16) : number? (hexText 1 n) = some n := by
  revert n; decide

theorem hexText_one (n : Nat) : hexText 1 n = ['0', 'x', hexDigit (n % 16)] := rfl

theorem inWord_hexText_one (n : Nat) : ∀ c ∈ hexText 1 n, InWord c := by
  have hx : InWord '0' ∧ InWord 'x' := by unfold InWord; decide
  simp [hexText_one, hx, inWord_hexDigit]

/-- The operands of a line, from its first word to the text `tail` behind the second operand (R76). -/
theorem tokens_operands {w : List Char} (h : w ≠ []) (hw : ∀ c ∈ w, InWord c) (cat cmd : Nat)
    (tail : List Char) :
    tokens [] (w ++ ' ' :: hexText 1 cat ++ ", ".toList ++ hexText 1 cmd ++ tail) =
      .word w :: .word (hexText 1 cat) :: .comma :: tokens (hexText 1 cmd).reverse tail := by
  rw [List.append_assoc, List.append_assoc, List.append_assoc, List.cons_append, tokens_word_space h hw]
  change _ :: tokens [] (hexText 1 cat ++ ',' :: ' ' :: (hexText 1 cmd ++ tail)) = _
  rw [tokens_word_comma (by simp [hexText_one]) (inWord_hexText_one cat), tokens_space,
    tokens_append (inWord_hexText_one cmd), List.append_nil]

/-- A second operand at the end of a line. -/
theorem tokens_hexText_nil (n : Nat) :
    tokens (hexText 1 n).reverse [] = [.word (hexText 1 n)] := rfl

/-- The text of FENC's keywords (R76). -/
def flagText (calcBit pad : Bool) : List Char :=
  (if calcBit then ", calc".toList else []) ++ (if pad then ", pad".toList else [])

/-- FENC's keywords behind the second operand read back as they are printed (R73). -/
theorem fencFlags?_tokens (n : Nat) (calcBit pad : Bool) :
    ∃ ts, tokens (hexText 1 n).reverse (flagText calcBit pad) = .word (hexText 1 n) :: ts ∧
      fencFlags? ts = some (calcBit, pad) := by
  cases calcBit <;> cases pad <;> exact ⟨_, rfl, rfl⟩

theorem printLine_fenc (cat cmd : Nat) (calcBit pad : Bool) :
    printLine (.fenc cat cmd calcBit pad) = "fenc".toList ++ ' ' :: hexText 1 cat ++ ", ".toList ++
      hexText 1 cmd ++ flagText calcBit pad := by
  rw [flagText, ← List.append_assoc]; rfl

theorem printLine_ackchk (cat cmd : Nat) :
    printLine (.ackchk cat cmd) = "ackchk".toList ++ ' ' :: hexText 1 cat ++ ", ".toList ++
      hexText 1 cmd ++ [] := by
  rw [List.append_nil]; rfl

/-- A line with two operands, from its words (R73). -/
theorem lineOfTokens?_operands (w : List Char) {cat cmd : Nat} (hcat : cat < 16) (hcmd : cmd < 16)
    (ts : List Token) :
    lineOfTokens? (.word w :: .word (hexText 1 cat) :: .comma :: .word (hexText 1 cmd) :: ts) =
      if w = "fenc".toList then (fencFlags? ts).map fun f => .fenc cat cmd f.1 f.2
      else if w = "ackchk".toList ∧ ts = [] then some (.ackchk cat cmd)
      else none := by
  simp only [lineOfTokens?, number?_hexText_one hcat, number?_hexText_one hcmd]

/-- The text of an operation's line reads back as that line. -/
theorem lineOfTokens?_printLine (i : Instr) :
    lineOfTokens? (tokens [] (printLine (asmOfInstr i))) = some (asmOfInstr i) := by
  cases i with
  | fenc cat cmd calcBit pad =>
    obtain ⟨ts, hts, hf⟩ := fencFlags?_tokens cmd.toNat calcBit pad
    rw [asmOfInstr, printLine_fenc, tokens_operands (by simp) (by simp [InWord]), hts,
      lineOfTokens?_operands _ cat.isLt (Nat.lt_trans cmd.isLt (by decide)), if_pos rfl, hf]
    rfl
  | ackchk cat cmd =>
    rw [asmOfInstr, printLine_ackchk, tokens_operands (by simp) (by simp [InWord]), tokens_hexText_nil,
      lineOfTokens?_operands _ cat.isLt (Nat.lt_trans cmd.isLt (by decide)), if_neg (by simp),
      if_pos ⟨rfl, rfl⟩]
  | imgu wide => cases wide <;> rfl
  | csum | fdec | otpv | fdtb => rfl

/-! ### The statements -/

/-- Settles O10: the row of an operation gives it back from its encoding, and selects that encoding. -/
theorem decodeOfEncodeIsTheOperation : Obligations.DecodeOfEncodeIsTheOperation := decode_encode

/-- Settles O4. -/
theorem illegalDescriptorsEndAtOnce : Obligations.IllegalDescriptorsEndAtOnce := by
  refine ⟨decode_eq_error_iff_mustBeZero, fun s d rest e hp hd => ?_, fun d hd => ?_⟩
  · exact (step_descWrite_illegal hp hd).trans (raise_eq_errorState ..)
  · simp only [List.mem_cons, List.not_mem_nil, or_false] at hd
    rcases hd with rfl | rfl | rfl | rfl <;> exact ⟨_, rfl⟩

/-- Settles O11: a row selects only the encoding of what it builds. -/
theorem encodeOfDecodeIsTheDescriptor : Obligations.EncodeOfDecodeIsTheDescriptor :=
  fun _ _ => encode_of_decode

/-- Settles O12: row by row; the rows exclude each other by their operation codes. -/
theorem decodeFollowsTheTable : Obligations.DecodeFollowsTheTable := by
  intro d
  refine ⟨decode_of_row 0, decode_of_row 1, decode_of_row 2, decode_of_row 3, decode_of_row 4,
    decode_of_row 5, decode_of_row 6, (decode_eq_error_iff d).2, length_filter_le_one ?_⟩
  simpa using descRows_exclusive d

/-- Settles O13. -/
theorem writtenDescriptorsDecode : Obligations.WrittenDescriptorsDecode := by
  unfold Obligations.WrittenDescriptorsDecode; decide

/-- Settles O14: the fields are bit ranges, and bit 0 is in neither. -/
theorem cmdByteRoundTrips : Obligations.CmdByteRoundTrips := by
  refine ⟨fun cat cmd => ⟨cmdByte_toNat cat cmd, ?_, cmdByteCategory_cmdByte cat cmd,
    cmdByteCommand_cmdByte cat cmd⟩, fun b => ⟨cmdByteCategory_eq b, cmdByteCommand_eq b⟩, fun b => ?_⟩
  · simp [cmdByte]
  · simp only [cmdByteCategory_eq, cmdByteCommand_eq, BitVec.extractLsb'_or]
    exact ⟨BitVec.or_zero, BitVec.or_zero⟩

/-- Settles O15. -/
theorem assemblerRefusesAndNeverTruncates : Obligations.AssemblerRefusesAndNeverTruncates :=
  ⟨rfl, rfl, rfl, rfl, rfl, rfl, assemble_fenc, assemble_ackchk, assemble_desc, by decide, by decide⟩

/-- Settles O16: a line is assembled from the descriptor's fields, and its text reads back as the line. -/
theorem disassemblyAssemblesBack : Obligations.DisassemblyAssemblesBack := by
  refine ⟨fun d i hd => ⟨assemble_disassemble d, ?_⟩, fun d e hd => ⟨?_, assemble_disassemble d⟩⟩
  · have hline : disassemble d = asmOfInstr i := by rw [disassemble, hd]
    rw [assembleText, hline, lineOfTokens?_printLine, ← hline]
    exact assemble_disassemble d
  · rw [disassemble, hd]

end Sys2Proof.Machine

/-! PROOF. The statements about the checksum and CSUM (40_checksum.md): the accumulator as the byte sum,
which sequences share a checksum, the frame's bytes, and the state in which an operation starts. First
the rules they share, then the statements. -/

namespace Sys2Proof.Machine

open Spec

/-! ### The byte sum -/

@[simp] theorem byteSum_nil : byteSum [] = 0 := rfl

@[simp] theorem byteSum_cons (b : Byte) (bs : List Byte) :
    byteSum (b :: bs) = b.toNat + byteSum bs := by
  simp only [byteSum, List.map_cons, List.sum_cons]

@[simp] theorem byteSum_append (bs cs : List Byte) :
    byteSum (bs ++ cs) = byteSum bs + byteSum cs := by
  simp only [byteSum, List.map_append, List.sum_append]

theorem byteSum_perm {bs cs : List Byte} (h : bs.Perm cs) : byteSum bs = byteSum cs :=
  (h.map _).sum_eq

/-! ### The accumulator and the checksum -/

/-- ACC8 adds the byte sum to its start, reduced to 8 bits (R79). -/
theorem acc8_eq_add_byteSum (acc : Byte) (bs : List Byte) :
    acc8 acc bs = acc + BitVec.ofNat 8 (byteSum bs) := by
  induction bs generalizing acc with
  | nil => exact (BitVec.add_zero acc).symm
  | cons b bs ih =>
    rw [acc8, ih, byteSum_cons, BitVec.ofNat_add, BitVec.ofNat_toNat, BitVec.setWidth_eq,
      BitVec.add_assoc]

theorem checksum_eq_sub_byteSum (bs : List Byte) :
    checksum bs = 0xAA - BitVec.ofNat 8 (byteSum bs) := by
  rw [checksum, acc8_eq_add_byteSum, zero_add]; rfl

theorem checksum_toNat (bs : List Byte) :
    (checksum bs).toNat = (256 - byteSum bs % 256 + 0xAA) % 256 := by
  rw [checksum_eq_sub_byteSum, BitVec.toNat_sub, BitVec.toNat_ofNat]; rfl

/-- A byte's share of the checksum does not depend on its place. -/
theorem checksum_append_cons (bs cs : List Byte) (b : Byte) :
    checksum (bs ++ b :: cs) = checksum (bs ++ cs) - b := by
  simp only [checksum_eq_sub_byteSum, byteSum_append, byteSum_cons, BitVec.ofNat_add, BitVec.ofNat_toNat,
    BitVec.setWidth_eq]
  ring

/-- The sequences that share a checksum are those that share the sum mod 256. -/
theorem checksum_eq_checksum_iff (bs cs : List Byte) :
    checksum bs = checksum cs ↔ byteSum bs % 256 = byteSum cs % 256 := by
  rw [checksum_eq_sub_byteSum, checksum_eq_sub_byteSum, sub_right_inj, ← BitVec.toNat_inj,
    BitVec.toNat_ofNat, BitVec.toNat_ofNat]

theorem checksum_singleton_eq_sentinel : checksum [0x22] = 0x88 := rfl

/-- The sequences whose checksum is the sentinel (R80). -/
theorem checksum_eq_sentinel_iff (bs : List Byte) :
    checksum bs = 0x88 ↔ byteSum bs % 256 = 0x22 := by
  rw [← checksum_singleton_eq_sentinel, checksum_eq_checksum_iff]; rfl

/-! ### The bytes of a frame -/

/-- The header as R85 writes it, on natural numbers. -/
theorem frameHeader_eq_ofNat (cat : Category) (cmd : Command) (n : Nat) :
    frameHeader cat cmd n = [BitVec.ofNat 8 ((cat.toNat <<< 4) ||| (cmd.toNat <<< 1)),
      BitVec.ofNat 8 ((n + 1) &&& 0xFF), BitVec.ofNat 8 ((n + 1) >>> 8)] := by
  have hlow : lowByte (BitVec.ofNat 16 (n + 1)) = BitVec.ofNat 8 ((n + 1) &&& 0xFF) := by
    apply BitVec.eq_of_toNat_eq
    rw [lowByte, BitVec.extractLsb'_toNat, BitVec.toNat_ofNat, BitVec.toNat_ofNat, Nat.shiftRight_zero,
      Nat.and_two_pow_sub_one_eq_mod (n + 1) 8]
    omega
  have hhigh : highByte (BitVec.ofNat 16 (n + 1)) = BitVec.ofNat 8 ((n + 1) >>> 8) := by
    apply BitVec.eq_of_toNat_eq
    rw [highByte, BitVec.extractLsb'_toNat, BitVec.toNat_ofNat, BitVec.toNat_ofNat,
      Nat.shiftRight_eq_div_pow, Nat.shiftRight_eq_div_pow]
    omega
  rw [frameHeader, halfBytes, hlow, hhigh, ← cmdByte_toNat, BitVec.ofNat_toNat, BitVec.setWidth_eq]

theorem frame_eq_header_append (cat : Category) (cmd : Command) (pl : List Byte) (c : Byte) :
    frame cat cmd pl c = frameHeader cat cmd pl.length ++ pl ++ [c] := by
  rw [frameHeader_eq_ofNat, frame]

/-- The bytes that the checksum covers: header and payload (R63). -/
theorem covered_eq_header_append (cat : Category) (cmd : Command) (pl : List Byte) :
    covered cat cmd pl = frameHeader cat cmd pl.length ++ pl := by
  rw [covered, frame_eq_header_append]
  exact List.take_left' (by rw [List.length_append, frameHeader_eq_ofNat]; rfl)

/-- An encoded frame is the message's frame with the checksum byte of what it covers (R85). -/
theorem encodeFrame_eq_frame (cat : Category) (cmd : Command) (pl : List Byte) (calcBit : Bool) :
    encodeFrame cat cmd pl calcBit = frame cat cmd pl (frameChecksum (covered cat cmd pl) calcBit) := by
  rw [frame_eq_header_append, covered_eq_header_append, encodeFrame]

/-- CALC makes no difference exactly when the computed checksum is the sentinel (R83). -/
theorem encodeFrame_calc_eq_iff (cat : Category) (cmd : Command) (pl : List Byte) :
    encodeFrame cat cmd pl true = encodeFrame cat cmd pl false ↔ checksum (covered cat cmd pl) = 0x88 := by
  rw [encodeFrame_eq_frame, encodeFrame_eq_frame, frame, frame, List.append_right_inj, List.singleton_inj]
  rfl

/-! ### The state in which an operation starts -/

/-- The unit starts `i` with the descriptor of `i` in DESC. -/
theorem StartedBy.desc_eq {i : Instr} {s : State} (h : StartedBy i s) : s.desc = encode i :=
  (encode_of_decode h).symm

/-- DESC[7:0], the LAST_OP that the operation records, is its operation code (R24). -/
theorem StartedBy.op_eq {i : Instr} {s : State} (h : StartedBy i s) :
    s.desc.extractLsb' 0 8 = i.opCode := by
  rw [h.desc_eq]
  cases i <;> exact descOp_descriptor ..

/-- An error of a started operation, with the operation's code in STATUS (R120). -/
theorem StartedBy.raise_eq {i : Instr} {s : State} (h : StartedBy i s) (c : StatusCode) :
    raise c s = .next (errorState s (statusWord i.opCode c)) := by
  rw [← h.op_eq]; rfl

/-- CSUM on an input that IN holds (R81). -/
theorem runCsum_of_inputIs {p : Params} {s : State} {bs : List Byte} (hc : inputLength s ≤ p.inCap)
    (hb : InputIs s bs) :
    runCsum p s = finishOk ((s.setCsumRes (csumResWord (checksum bs))).setOutLen 0) := by
  rw [runCsum, checkInput_of_le _ _ _ hc, readInput_of_inputIs hb, withRead_ok]

/-- CSUM on an input with a byte never written (R36). -/
theorem runCsum_fault_of_none {p : Params} {s : State} {a : Nat} (hc : inputLength s ≤ p.inCap)
    (ha : a < inputLength s) (hn : s.inMem.read? a = none) : ∃ f, runCsum p s = .fault f := by
  obtain ⟨f, hf⟩ := readInBytes_error_of_none (a := 0) ha (by rwa [Nat.zero_add])
  exact ⟨f, by rw [runCsum, checkInput_of_le _ _ _ hc, hf, withRead_error]⟩

/-! ### The statements -/

/-- Settles O17: the accumulator is the byte sum mod 256, and the checksum its complement. -/
theorem checksumIsTheAdditiveComplement : Obligations.ChecksumIsTheAdditiveComplement := by
  intro bs
  constructor
  · rw [checksum_toNat]; omega
  · rw [acc8_eq_add_byteSum, zero_add, BitVec.toNat_ofNat]

/-- Settles O18: each property is the complement of the sum, a byte's share, or the equality of sums. -/
theorem checksumHasTheListedProperties : Obligations.ChecksumHasTheListedProperties := by
  refine ⟨fun bs => ?_, rfl, fun bs cs => (checksum_eq_checksum_iff bs cs).2, fun bs cs h => ?_,
    fun bs cs => ?_, fun bs cs b δ => ?_, fun bs cs b b' hne h => hne ?_, checksum_eq_sentinel_iff⟩
  · rw [checksum_toNat]; omega
  · rw [checksum_eq_checksum_iff, byteSum_perm h]
  · rw [checksum_append_cons]; exact BitVec.sub_zero _
  · rw [checksum_append_cons, checksum_append_cons, sub_sub]
  · rwa [checksum_append_cons, checksum_append_cons, sub_right_inj] at h

/-- Settles O21: the two frames differ at most in the checksum byte. -/
theorem computedSentinelIsNotSpecial : Obligations.ComputedSentinelIsNotSpecial := by
  refine ⟨fun bs => (checksum_eq_sentinel_iff bs).2, fun cat cmd pl _ => ?_⟩
  rw [encodeFrame_calc_eq_iff, checksum_eq_sentinel_iff]

/-- Settles O27: the endings of CSUM, with its operation code in STATUS. -/
theorem csumFollowsItsRule : Obligations.CsumFollowsItsRule := by
  refine ⟨rfl, rfl, rfl, rfl, fun s hs => ⟨fun hc => ?_, fun bs hc hb => ?_, fun a hc ha hn => ?_⟩⟩
  · rw [exec_csum, runCsum, checkInput_of_lt _ _ _ hc]
    exact hs.raise_eq .capacity
  · rw [exec_csum, runCsum_of_inputIs hc hb, finishOk_eq, State.setStatus, State.setOutLen_desc,
      State.setCsumRes_desc, hs.op_eq]
    rfl
  · rw [exec_csum]; exact runCsum_fault_of_none hc ha hn

end Sys2Proof.Machine

/-! PROOF. The statements about the frame codec (41_frame_codec.md): FENC, FDEC and ACKCHK. First the
bytes and words of a frame, then what each operation does on the input that its rule names, then the
statements. -/

namespace Sys2Proof.Machine

open Spec

/-! ### The length field and DEC_HDR as numbers -/

/-- The declared length as R88 writes it. -/
theorem half_eq_toNat (lo hi : Byte) : half lo hi = (halfOfBytes lo hi).toNat := by
  rw [half, halfOfBytes, toNat_append_add, or_shiftLeft_eq_add _ _ 8 lo.isLt]

theorem halfOfBytes_eq_zero_iff (lo hi : Byte) : halfOfBytes lo hi = 0 ↔ half lo hi = 0 := by
  rw [half_eq_toNat, ← BitVec.toNat_inj]; rfl

theorem payloadLength_halfOfBytes (lo hi : Byte) :
    payloadLength (halfOfBytes lo hi) = half lo hi - 1 := by
  rw [half_eq_toNat, payloadLength]

/-- The checksum byte lies at index 2 + declared (R88). -/
theorem dataSpan_halfOfBytes {lo hi : Byte} (h : half lo hi ≠ 0) :
    dataSpan (halfOfBytes lo hi) = 2 + half lo hi := by
  rw [dataSpan, payloadLength_halfOfBytes, hdrSize_eq]; omega

/-- The length field of R85 reads back as the number it was made from. -/
theorem half_ofNat {n : Nat} (h : n < 65536) :
    half (BitVec.ofNat 8 (n &&& 0xFF)) (BitVec.ofNat 8 (n >>> 8)) = n := by
  rw [half, or_shiftLeft_eq_add _ _ 8 (BitVec.isLt _), BitVec.toNat_ofNat, BitVec.toNat_ofNat,
    Nat.and_two_pow_sub_one_eq_mod n 8, Nat.shiftRight_eq_div_pow]
  omega

/-- DEC_HDR as R89 writes it is the word of its fields. -/
theorem decHdr_eq_decHdrWord (b0 : Byte) (skipped : Bool) (lo hi : Byte) :
    decHdr b0.toNat skipped.toNat (half lo hi) = decHdrWord b0 skipped (halfOfBytes lo hi) := by
  have := b0.isLt
  have := toNat_bool_lt skipped
  apply BitVec.eq_of_toNat_eq
  rw [decHdr, half_eq_toNat, BitVec.toNat_ofNat, decHdrWord_toNat,
    Nat.and_two_pow_sub_one_eq_mod b0.toNat 4, Nat.and_one_is_mod, Nat.shiftRight_eq_div_pow,
    Nat.shiftRight_eq_div_pow, Nat.mod_mul_right_div_self b0.toNat 2 8,
    or_shiftLeft_eq_add _ _ 4 (by omega), or_shiftLeft_eq_add _ _ 7 (by omega),
    or_shiftLeft_eq_add _ _ 8 (by omega), or_shiftLeft_eq_add _ _ 16 (by omega)]
  have := (halfOfBytes lo hi).isLt
  omega

/-- ERR_CSUM as R89 writes it. -/
theorem errCsumWord_eq_ofNat (expected received : Byte) :
    errCsumWord expected received = BitVec.ofNat 32 (expected.toNat ||| (received.toNat <<< 8)) := by
  rw [or_shiftLeft_eq_add _ _ 8 expected.isLt, ← BitVec.toNat_inj, errCsumWord_toNat, BitVec.toNat_ofNat]
  omega

/-! ### Frames and their padding -/

/-- What the checksum covers: three header bytes that declare the payload's length, and the payload (R63). -/
theorem covered_eq_bytes (cat : Category) (cmd : Command) {pl : List Byte} (hl : pl.length ≤ 65534) :
    ∃ b1 b2, half b1 b2 = pl.length + 1 ∧ covered cat cmd pl = [cmdByte cat cmd, b1, b2] ++ pl := by
  have hh := frameHeader_eq_ofNat cat cmd pl.length
  rw [← cmdByte_toNat, BitVec.ofNat_toNat, BitVec.setWidth_eq] at hh
  exact ⟨_, _, half_ofNat (by omega), by rw [covered_eq_header_append, hh]⟩

/-- A frame is the bytes that the checksum covers, and the checksum byte (R63). -/
theorem frame_eq_covered_append (cat : Category) (cmd : Command) (pl : List Byte) (c : Byte) :
    frame cat cmd pl c = covered cat cmd pl ++ [c] := by
  rw [frame_eq_header_append, covered_eq_header_append]

theorem frame_length (cat : Category) (cmd : Command) (pl : List Byte) (c : Byte) :
    (frame cat cmd pl c).length = 4 + pl.length := by
  simp only [frame, List.length_append, List.length_cons, List.length_nil]; omega

/-- Bit 0 of an encoded `cmd` byte is 0 (R64). -/
theorem cmdByte_getLsbD_zero (cat : Category) (cmd : Command) : (cmdByte cat cmd).getLsbD 0 = false := by
  obtain ⟨-, h, -⟩ := cmdByteRoundTrips.1 cat cmd
  exact h

/-- A change of the `cmd` byte or of a payload byte leaves the length field as it is. -/
theorem set_header_append {k : Nat} (hk : k = 0 ∨ 3 ≤ k) (b0 b1 b2 x : Byte) (pl : List Byte) :
    ∃ b0' pl', pl'.length = pl.length ∧ ([b0, b1, b2] ++ pl).set k x = [b0', b1, b2] ++ pl' := by
  rcases hk with rfl | hk
  · exact ⟨x, pl, rfl, rfl⟩
  · obtain ⟨j, rfl⟩ := Nat.exists_eq_add_of_le' hk
    exact ⟨b0, pl.set j x, List.length_set, rfl⟩

/-- One changed byte changes the checksum (R80). -/
theorem checksum_set_ne {bs : List Byte} {k : Nat} {x : Byte} (hk : k < bs.length)
    (hx : bs[k]? ≠ some x) : checksum (bs.set k x) ≠ checksum bs := by
  have share : ∀ y, checksum (bs.set k y) = checksum (bs.take k ++ bs.drop (k + 1)) - y := fun y => by
    rw [List.set_eq_take_append_cons_drop, if_pos hk, checksum_append_cons]
  have hself := share bs[k]
  rw [List.set_getElem_self] at hself
  rw [share, hself, Ne, sub_right_inj]
  rintro rfl
  exact hx (List.getElem?_eq_getElem hk)

theorem frameTotal_eq_encodedLength (n : Nat) (pad : Bool) :
    frameTotal Config.params n pad = encodedLength n pad := rfl

/-- What rounding up to a multiple of `d` gives: the least multiple of `d` from `n` up. -/
theorem roundUp_least {d : Nat} (hd : 1 ≤ d) (n m : Nat) (hm : d ∣ m) (hn : n ≤ m) :
    (n + d - 1) / d * d ≤ m := by
  obtain ⟨k, rfl⟩ := hm
  rw [Nat.mul_comm d k] at hn ⊢
  refine Nat.mul_le_mul_right d ?_
  rw [Nat.div_le_iff_le_mul_add_pred hd, Nat.mul_comm]
  omega

/-- The padded frame, byte by byte (R87). -/
theorem padFrame_getElem? {f : List Byte} {total : Nat} (h : f.length ≤ total) (a : Nat) :
    (padFrame f total)[a]? = if a < f.length then f[a]? else if a < total then some 0x00 else none := by
  rw [padFrame]
  split
  · exact List.getElem?_append_left ‹_›
  · rw [List.getElem?_append_right (by omega), List.getElem?_replicate]
    exact if_congr (by omega) rfl rfl

/-- The bytes that FENC writes, as R86 writes them. -/
theorem padFrame_encodeFrame (cat : Category) (cmd : Command) (pl : List Byte) (calcBit : Bool)
    (total : Nat) :
    padFrame (encodeFrame cat cmd pl calcBit) total =
      frame cat cmd pl (frameChecksum (covered cat cmd pl) calcBit) ++
        List.replicate (total - (4 + pl.length)) 0x00 := by
  rw [padFrame, encodeFrame_length, encodeFrame_eq_frame]

/-- FDEC accepts the checksum byte that FENC writes (R90). -/
theorem frameChecksum_accepted (body : List Byte) (calcBit : Bool) :
    frameChecksum body calcBit = 0x88 ∨ checksum body = frameChecksum body calcBit := by
  cases calcBit with
  | false => exact .inl rfl
  | true => exact .inr rfl

/-- When FDEC takes the checksum byte that FENC writes for the sentinel (R83, R90). -/
theorem frameChecksum_eq_sentinel_iff (body : List Byte) (calcBit : Bool) :
    frameChecksum body calcBit = 0x88 ↔ calcBit = false ∨ checksum body = 0x88 := by
  cases calcBit with
  | false => exact iff_of_true rfl (.inl rfl)
  | true => exact (or_iff_right (by decide)).symm

/-! ### The end of a started operation -/

/-- OK in a started operation, with the operation's code in STATUS (R24). -/
theorem finishOk_of_op_eq {op : Byte} {s t : State} (h : s.desc.extractLsb' 0 8 = op)
    (ht : t.desc = s.desc) : finishOk t = .next { t with status := statusWord op .ok } := by
  rw [← h, ← ht]; rfl

/-- The bytes put in OUT from index 0 up are the output (R34). -/
theorem outputIs_of_outMem {s t : State} {bs : List Byte} (h : t.outMem = s.outMem.writeBytes 0 bs) :
    OutputIs s t bs := fun a => by
  rw [h, Memory.read?_writeBytes_zero]

/-- OUT read elsewhere: a memory that reads as OUT where the output starts with `bs` holds `bs`. -/
theorem holds_copy_of_outputIs {s t : State} {m : Memory} {bs cs : List Byte} (h : OutputIs s t (bs ++ cs))
    (hm : ∀ a, a < bs.length → m.read? a = t.outMem.read? a) : m.Holds 0 bs := fun i hi => by
  have hlt : i < (bs ++ cs).length := by rw [List.length_append]; omega
  rw [Nat.zero_add, hm i hi, h i, if_pos hlt, List.getElem?_append_left hi]

/-! ### FENC -/

section Fenc

variable {p : Params} {cat : Category} {cmd : Command} {calcBit pad : Bool} {s : State}

theorem StartedBy.op_fenc (hs : StartedBy (.fenc cat cmd calcBit pad) s) :
    s.desc.extractLsb' 0 8 = 0x02 := hs.op_eq

theorem StartedBy.raise_fenc (hs : StartedBy (.fenc cat cmd calcBit pad) s) (c : StatusCode) :
    raise c s = .next (errorState s (statusWord 0x02 c)) := hs.raise_eq c

/-- FENC on a payload that IN holds and the length field can count (R86). -/
theorem runFenc_of_inputIs {pl : List Byte} (hc : inputLength s ≤ p.inCap)
    (hr : inputLength s ≤ 65534) (hb : InputIs s pl) :
    runFenc p cat cmd calcBit pad s =
      if p.outCap < frameTotal p (inputLength s) pad then raise .capacity s
      else finishOk ((s.putOut (padFrame (encodeFrame cat cmd pl calcBit)
        (frameTotal p (inputLength s) pad))).setOutLen (frameTotal p (inputLength s) pad)) := by
  rw [runFenc, checkInput_of_le _ _ _ hc, if_neg (Nat.not_lt.2 hr), readInput_of_inputIs hb, withRead_ok]

/-- FENC on a payload that the length field cannot count (R86). -/
theorem runFenc_of_long (hc : inputLength s ≤ p.inCap) (hr : 65534 < inputLength s) :
    runFenc p cat cmd calcBit pad s = raise .encodeRange s := by
  rw [runFenc, checkInput_of_le _ _ _ hc, if_pos hr]

/-- FENC on a payload with a byte never written (R36). -/
theorem runFenc_fault_of_none {a : Nat} (hc : inputLength s ≤ p.inCap) (hr : inputLength s ≤ 65534)
    (ha : a < inputLength s) (hn : s.inMem.read? a = none) :
    ∃ f, runFenc p cat cmd calcBit pad s = .fault f := by
  obtain ⟨f, hf⟩ := readInBytes_error_of_none (a := 0) ha (by rwa [Nat.zero_add])
  exact ⟨f, by
    rw [runFenc, checkInput_of_le _ _ _ hc, if_neg (Nat.not_lt.2 hr), hf, withRead_error]⟩

/-- FENC on a frame that fits OUT: the padded frame in OUT, its length, OK (R86). -/
theorem fenc_encodes {pl : List Byte} (hs : StartedBy (.fenc cat cmd calcBit pad) s)
    (hc : inputLength s ≤ Config.params.inCap) (hr : inputLength s ≤ 65534) (hb : InputIs s pl)
    (ho : encodedLength (inputLength s) pad ≤ Config.params.outCap) :
    ∃ t, exec (.fenc cat cmd calcBit pad) s = .next t ∧
      t = { s with outMem := t.outMem, outLen := t.outLen, status := 0x00000201 } ∧
      (encodedLength (inputLength s) pad < 4294967296 →
        t.outLen = BitVec.ofNat 32 (encodedLength (inputLength s) pad)) ∧
      OutputIs s t
        (frame cat cmd pl (frameChecksum (covered cat cmd pl) calcBit) ++
          List.replicate (encodedLength (inputLength s) pad - (4 + inputLength s)) 0x00) := by
  rw [exec_fenc, runFenc_of_inputIs hc hr hb, frameTotal_eq_encodedLength, if_neg (Nat.not_lt.2 ho)]
  refine ⟨_, finishOk_of_op_eq hs.op_fenc rfl, rfl, outLenWord_of_lt _ _, ?_⟩
  rw [hb.1, ← padFrame_encodeFrame, ← hb.1]
  exact outputIs_of_outMem rfl

end Fenc

/-! ### FDEC -/

/-- CHECKSUM_MISMATCH of a started FDEC, with its detail register (R120). -/
theorem StartedBy.raise_mismatch {s : State} (hs : StartedBy .fdec s) (w : Word) :
    raise .checksumMismatch (s.setErrCsum w) =
      .next { s with errCsum := some w, outLen := 0, status := 0x00000302 } := by
  have hs' : StartedBy .fdec (s.setErrCsum w) := hs
  exact hs'.raise_eq .checksumMismatch

/-- FDEC on an input shorter than a header (R89). -/
theorem runFdec_of_short {p : Params} {s : State} (hc : inputLength s ≤ p.inCap)
    (hn : inputLength s < 3) : runFdec p s = raise .truncatedFrame s := by
  rw [runFdec, checkInput_of_le _ _ _ hc, if_pos hn]

/-- FDEC on a header with a byte never written (R36). -/
theorem runFdec_fault_of_none {p : Params} {s : State} {a : Nat} (hc : inputLength s ≤ p.inCap)
    (hn : 3 ≤ inputLength s) (ha : a < 3) (h : s.inMem.read? a = none) :
    ∃ f, runFdec p s = .fault f := by
  obtain ⟨f, hf⟩ := readInBytes_error_of_none (a := 0) ha (by rwa [Nat.zero_add])
  exact ⟨f, by rw [runFdec, checkInput_of_le _ _ _ hc, if_neg (Nat.not_lt.2 hn), hf, withRead_error]⟩

/-- FDEC on a header that IN holds: TRUNCATED_FRAME, or the checksum step (R89). -/
theorem runFdec_of_header {p : Params} {s : State} {b0 b1 b2 : Byte} (hc : inputLength s ≤ p.inCap)
    (hn : 3 ≤ inputLength s) (hh : s.inMem.Holds 0 [b0, b1, b2]) :
    runFdec p s =
      if half b1 b2 = 0 ∨ inputLength s < 3 + half b1 b2 then raise .truncatedFrame s
      else verifyFrame p b0 (halfOfBytes b1 b2) s := by
  have hr : readInBytes s 0 3 = .ok [b0, b1, b2] := (readInBytes_eq_ok_iff ..).2 ⟨rfl, hh⟩
  rw [runFdec, checkInput_of_le _ _ _ hc, if_neg (Nat.not_lt.2 hn), hr, withRead_ok]
  simp only [List.getD_cons_zero, List.getD_cons_succ, halfOfBytes_eq_zero_iff]
  by_cases hd : half b1 b2 = 0
  · rw [if_pos hd, if_pos (.inl hd)]
  · rw [if_neg hd, dataSpan_halfOfBytes hd]
    exact if_congr (by omega) rfl rfl

/-- IN, all of whose IN_LEN bytes fit, starts with the header `b0 b1 b2` of a complete frame (R88). -/
structure ReceivesFrame (p : Params) (s : State) (b0 b1 b2 : Byte) : Prop where
  fits : inputLength s ≤ p.inCap
  header : s.inMem.Holds 0 [b0, b1, b2]
  declared : half b1 b2 ≠ 0
  complete : 3 + half b1 b2 ≤ inputLength s

section ReceivesFrame

variable {p : Params} {s : State} {b0 b1 b2 : Byte} (h : ReceivesFrame p s b0 b1 b2)

include h

theorem ReceivesFrame.runFdec_eq : runFdec p s = verifyFrame p b0 (halfOfBytes b1 b2) s := by
  have hd := h.declared
  have hc := h.complete
  rw [runFdec_of_header h.fits (by omega) h.header, if_neg (by omega)]

/-- A checksum byte never written faults (R36). -/
theorem ReceivesFrame.fault_of_checksum (hr : s.inMem.read? (2 + half b1 b2) = none) :
    ∃ f, runFdec p s = .fault f := by
  rw [← dataSpan_halfOfBytes h.declared] at hr
  exact ⟨_, by rw [h.runFdec_eq, verifyFrame, readIn_eq_error _ _ hr, withRead_error]⟩

/-- The sentinel skips the check (R89). -/
theorem ReceivesFrame.runFdec_of_sentinel (hr : s.inMem.read? (2 + half b1 b2) = some 0x88) :
    runFdec p s = deliverPayload p b0 (halfOfBytes b1 b2) true s := by
  rw [← dataSpan_halfOfBytes h.declared] at hr
  rw [h.runFdec_eq, verifyFrame, (readIn_eq_ok_iff ..).2 hr, withRead_ok, if_pos csumSentinel_eq.symm]

/-- Every other checksum byte is compared with the checksum of header and payload (R89). -/
theorem ReceivesFrame.runFdec_of_checked {rcv : Byte} {pl : List Byte}
    (hr : s.inMem.read? (2 + half b1 b2) = some rcv) (hne : rcv ≠ 0x88)
    (hl : pl.length = half b1 b2 - 1) (hp : s.inMem.Holds 3 pl) :
    runFdec p s =
      if checksum ([b0, b1, b2] ++ pl) = rcv then deliverPayload p b0 (halfOfBytes b1 b2) false s
      else raise .checksumMismatch (s.setErrCsum (errCsumWord (checksum ([b0, b1, b2] ++ pl)) rcv)) := by
  have hd := h.declared
  have hbody : readInBytes s 0 (2 + half b1 b2) = .ok ([b0, b1, b2] ++ pl) :=
    (readInBytes_eq_ok_iff ..).2 ⟨by
      simp only [List.length_append, List.length_cons, List.length_nil]; omega, (Memory.holds_append ..).2 ⟨h.header, hp⟩⟩
  rw [h.runFdec_eq, verifyFrame, dataSpan_halfOfBytes hd, (readIn_eq_ok_iff ..).2 hr, withRead_ok,
    csumSentinel_eq, if_neg hne, hbody, withRead_ok]

/-- A payload byte never written faults when the checksum is computed (R36). -/
theorem ReceivesFrame.fault_of_checked {rcv : Byte} {a : Nat}
    (hr : s.inMem.read? (2 + half b1 b2) = some rcv) (hne : rcv ≠ 0x88) (ha : a < half b1 b2 - 1)
    (hn : s.inMem.read? (3 + a) = none) : ∃ f, runFdec p s = .fault f := by
  obtain ⟨f, hf⟩ := readInBytes_error_of_none (a := 0) (n := 2 + half b1 b2) (i := 3 + a) (by omega)
    (by rwa [Nat.zero_add])
  exact ⟨f, by
    rw [h.runFdec_eq, verifyFrame, dataSpan_halfOfBytes h.declared, (readIn_eq_ok_iff ..).2 hr,
      withRead_ok, csumSentinel_eq, if_neg hne, hf, withRead_error]⟩

end ReceivesFrame

section DeliverPayload

variable {p : Params} {s : State} {b0 b1 b2 : Byte} {skipped : Bool}

/-- A payload that does not fit OUT (R89). -/
theorem deliverPayload_of_lt (hc : p.outCap < half b1 b2 - 1) :
    deliverPayload p b0 (halfOfBytes b1 b2) skipped s = raise .capacity s := by
  rw [deliverPayload, payloadLength_halfOfBytes, if_pos hc]

/-- A payload with a byte never written (R36). -/
theorem deliverPayload_fault_of_none {a : Nat} (hc : half b1 b2 - 1 ≤ p.outCap) (ha : a < half b1 b2 - 1)
    (hn : s.inMem.read? (3 + a) = none) :
    ∃ f, deliverPayload p b0 (halfOfBytes b1 b2) skipped s = .fault f := by
  obtain ⟨f, hf⟩ := readInBytes_error_of_none ha hn
  exact ⟨f, by
    rw [deliverPayload, payloadLength_halfOfBytes, if_neg (Nat.not_lt.2 hc), hf, withRead_error]⟩

/-- A payload that IN holds and that fits OUT (R89). -/
theorem deliverPayload_delivers {pl : List Byte} (hs : StartedBy .fdec s) (hc : half b1 b2 - 1 ≤ p.outCap)
    (hl : pl.length = half b1 b2 - 1) (hp : s.inMem.Holds 3 pl) :
    ∃ t, deliverPayload p b0 (halfOfBytes b1 b2) skipped s = .next t ∧
      Delivered s t b0 skipped.toNat (half b1 b2) pl := by
  have hlt : pl.length < 4294967296 := by
    have := (halfOfBytes b1 b2).isLt
    rw [← half_eq_toNat] at this
    omega
  rw [deliverPayload, payloadLength_halfOfBytes, if_neg (Nat.not_lt.2 hc),
    (readInBytes_eq_ok_iff ..).2 ⟨hl, hp⟩, withRead_ok, ← hl]
  refine ⟨_, finishOk_of_op_eq hs.op_eq rfl, ?_, outputIs_of_outMem rfl⟩
  rw [decHdr_eq_decHdrWord, ← outLenWord_of_lt s.desc s.inLen hlt]
  rfl

end DeliverPayload

/-- What the registers hold after an FDEC that delivered a payload. -/
theorem registers_of_delivered {s t : State} {b0 b1 b2 : Byte} {skipped : Bool} {pl : List Byte}
    (h : Delivered s t b0 skipped.toNat (half b1 b2) pl) :
    t.status = 0x00000301 ∧ t.decHdr = some (decHdrWord b0 skipped (halfOfBytes b1 b2)) ∧
      t.outLen = BitVec.ofNat 32 pl.length ∧ OutputIs s t pl := by
  obtain ⟨he, hout⟩ := h
  rw [decHdr_eq_decHdrWord] at he
  exact ⟨congrArg State.status he, congrArg State.decHdr he, congrArg State.outLen he, hout⟩

/-- A received frame's bytes are its header, its payload and its checksum byte (R63). -/
theorem Memory.holds_frame_iff (m : Memory) (b0 b1 b2 c : Byte) (pl : List Byte) :
    m.Holds 0 ([b0, b1, b2] ++ pl ++ [c]) ↔
      m.Holds 0 [b0, b1, b2] ∧ m.Holds 3 pl ∧ m.read? (3 + pl.length) = some c := by
  rw [Memory.holds_append, Memory.holds_append, and_assoc, Memory.holds_cons, List.length_append,
    Nat.zero_add, Nat.zero_add]
  simp [Memory.Holds]

section CompleteFrame

variable {s : State} {b0 b1 b2 c : Byte} {pl : List Byte} (hs : StartedBy .fdec s)
  (hf : inputLength s ≤ Config.params.inCap) (hd : half b1 b2 = pl.length + 1)
  (hn : 4 + pl.length ≤ inputLength s) (hb : s.inMem.Holds 0 ([b0, b1, b2] ++ pl ++ [c]))

include hf hd hn hb

theorem receivesFrame_of_holds : ReceivesFrame Config.params s b0 b1 b2 :=
  ⟨hf, ((Memory.holds_frame_iff ..).1 hb).1, by omega, by omega⟩

include hs

/-- FDEC on a complete frame delivers the payload if the checksum byte is the sentinel or correct (R89). -/
theorem fdec_delivers (ho : pl.length ≤ Config.params.outCap)
    (hc : c = 0x88 ∨ checksum ([b0, b1, b2] ++ pl) = c) :
    ∃ t, exec .fdec s = .next t ∧ Delivered s t b0 (c == 0x88).toNat (half b1 b2) pl := by
  have hr := receivesFrame_of_holds hf hd hn hb
  obtain ⟨-, hp, hcs⟩ := (Memory.holds_frame_iff ..).1 hb
  rw [show 3 + pl.length = 2 + half b1 b2 by omega] at hcs
  rw [exec_fdec]
  by_cases h88 : c = 0x88
  · subst h88
    rw [hr.runFdec_of_sentinel hcs]
    exact deliverPayload_delivers hs (by omega) (by omega) hp
  · rw [hr.runFdec_of_checked hcs h88 (by omega) hp, if_pos (hc.resolve_left h88), beq_false_of_ne h88]
    exact deliverPayload_delivers hs (by omega) (by omega) hp

/-- FDEC on a complete frame with another checksum byte records both values (R89). -/
theorem fdec_mismatch (h88 : c ≠ 0x88) (hne : checksum ([b0, b1, b2] ++ pl) ≠ c) :
    exec .fdec s = .next { s with
      errCsum := some (errCsumWord (checksum ([b0, b1, b2] ++ pl)) c), outLen := 0,
      status := 0x00000302 } := by
  have hr := receivesFrame_of_holds hf hd hn hb
  obtain ⟨-, hp, hcs⟩ := (Memory.holds_frame_iff ..).1 hb
  rw [show 3 + pl.length = 2 + half b1 b2 by omega] at hcs
  rw [exec_fdec, hr.runFdec_of_checked hcs h88 (by omega) hp, if_neg hne]
  exact hs.raise_mismatch _

end CompleteFrame

/-! ### ACKCHK -/

theorem toNat_bne {w : Nat} (x y : BitVec w) : (x != y).toNat = if x ≠ y then 1 else 0 := by
  by_cases h : x = y <;> simp [h]

/-- ACK_RSN as R93 writes it. -/
theorem ackRsnWord_eq_ofNat (catBad cmdBad : Bool) :
    ackRsnWord catBad cmdBad = BitVec.ofNat 32 (catBad.toNat ||| (cmdBad.toNat <<< 1)) := by
  cases catBad <;> cases cmdBad <;> rfl

/-- ACKCHK records both reasons and the status they give, and writes nothing else (R93). -/
theorem ackchk_records {cat : Category} {cmd : Command} {s : State} (hs : StartedBy (.ackchk cat cmd) s) :
    exec (.ackchk cat cmd) s = .next { s with
      ackRsn := some (BitVec.ofNat 32
        ((if cat ≠ 0x0B then 1 else 0) ||| ((if cmd ≠ 0 then 1 else 0) <<< 1))),
      outLen := 0, status := if cat = 0x0B ∧ cmd = 0 then 0x00000401 else 0x00000403 } := by
  have hop : s.desc.extractLsb' 0 8 = 0x04 := hs.op_eq
  have hst : ∀ c : Prop, [Decidable c] → statusWord 0x04 (if c then .ok else .invalidAck) =
      if c then 0x00000401 else 0x00000403 := fun c _ => apply_ite (statusWord 0x04) c .ok .invalidAck
  rw [exec_ackchk, execAckchk_eq, State.setStatus, State.setOutLen_desc, State.setAckRsn_desc, hop, hst,
    ackRsnWord_eq_ofNat, toNat_bne, toNat_bne]
  rfl

/-! ### The statements -/

/-- Settles O19: the length field of R85 reads back, so its two bytes lose nothing. -/
theorem encodeFrameGivesTheBytes : Obligations.EncodeFrameGivesTheBytes := by
  intro cat cmd pl calcBit hl
  exact ⟨encodeFrame_eq_frame cat cmd pl calcBit, encodeFrame_length cat cmd pl calcBit,
    half_ofNat (by omega)⟩

/-- Settles O20: T is 4 + n rounded up. -/
theorem paddingIsTheLeastMultiple : Obligations.PaddingIsTheLeastMultiple := by
  refine ⟨fun n => ?_, frameTotal_eq_encodedLength,
    fun f total a h => ⟨padFrame_length f total h, padFrame_getElem? h a⟩⟩
  have hge : 4 + n ≤ encodedLength n true := frameTotal_ge Config.params n true blockSize_pos
  have hleast := roundUp_least blockSize_pos (4 + n)
  exact ⟨Nat.dvd_mul_left .., hge, hleast, fun hd => Nat.le_antisymm (hleast _ hd le_rfl) hge⟩

/-- Settles O28: the endings of FENC, with its operation code in STATUS. -/
theorem fencFollowsItsRule : Obligations.FencFollowsItsRule := by
  refine ⟨encode_fenc_eq_ofNat, fun cat cmd calcBit pad s hs => ⟨fun hc => ?_, fun hc hr => ?_,
    fun pl hc hr hb ho => ?_, fun pl hc hr hb ho => fenc_encodes hs hc hr hb ho,
    fun a hc hr ha _ hn => runFenc_fault_of_none hc hr ha hn⟩⟩
  · rw [exec_fenc, runFenc, checkInput_of_lt _ _ _ hc]
    exact hs.raise_fenc .capacity
  · rw [exec_fenc, runFenc_of_long hc hr]
    exact hs.raise_fenc .encodeRange
  · rw [exec_fenc, runFenc_of_inputIs hc hr hb, frameTotal_eq_encodedLength, if_pos ho]
    exact hs.raise_fenc .capacity

/-- Settles O29: the length checks, then the checksum step, then the payload, in the order of R121. -/
theorem fdecFollowsItsRule : Obligations.FdecFollowsItsRule := by
  refine ⟨rfl, fun s hs => ?_⟩
  simp only [exec_fdec]
  refine ⟨fun hc => ?_, fun hc hn => ?_, fun a hc hn ha h => runFdec_fault_of_none hc hn ha h,
    fun b0 b1 b2 hc hn hh => ⟨fun hd => ?_, fun _ hl => ?_, fun hd hl => ?_⟩⟩
  · rw [runFdec, checkInput_of_lt _ _ _ hc]
    exact hs.raise_eq .capacity
  · rw [runFdec_of_short hc hn]
    exact hs.raise_eq .truncatedFrame
  · rw [runFdec_of_header hc hn hh, if_pos (.inl hd)]
    exact hs.raise_eq .truncatedFrame
  · rw [runFdec_of_header hc hn hh, if_pos (.inr hl)]
    exact hs.raise_eq .truncatedFrame
  have hf : ReceivesFrame Config.params s b0 b1 b2 := ⟨hc, hh, hd, hl⟩
  refine ⟨hf.fault_of_checksum, fun hr => ?_, fun rcv hr hne => ⟨fun pl hpl hp => ?_,
    fun a ha hna => hf.fault_of_checked hr hne ha hna⟩⟩
  · rw [hf.runFdec_of_sentinel hr]
    refine ⟨fun ho => ?_, fun pl ho hpl hp => deliverPayload_delivers hs ho hpl hp,
      fun a ho ha hna => deliverPayload_fault_of_none ho ha hna⟩
    rw [deliverPayload_of_lt ho]
    exact hs.raise_eq .capacity
  · rw [hf.runFdec_of_checked hr hne hpl hp]
    refine ⟨fun hcs => ?_, fun hcs ho => ?_, fun hcs ho => ?_⟩
    · rw [if_neg hcs, ← errCsumWord_eq_ofNat]
      exact hs.raise_mismatch _
    · rw [if_pos hcs, deliverPayload_of_lt ho]
      exact hs.raise_eq .capacity
    · rw [if_pos hcs]
      exact deliverPayload_delivers hs ho hpl hp

/-- Settles O30: each line of R94 is a case of what ACKCHK records. -/
theorem ackchkFollowsItsRule : Obligations.AckchkFollowsItsRule := by
  refine ⟨encode_ackchk_eq_ofNat, fun cat cmd s hs => ackchk_records hs, fun r hr s rest hp => ?_⟩
  have hs : StartedBy (.ackchk r.1 r.2.1) ((s.setPending rest).setDesc (encode (.ackchk r.1 r.2.1))) :=
    decode_encode _
  rw [step_descWrite_legal hp hs, ackchk_records hs]
  refine ⟨_, rfl, ?_⟩
  clear hs hp
  simp only [List.mem_cons, List.not_mem_nil, or_false] at hr
  rcases hr with rfl | rfl | rfl | rfl <;> exact ⟨rfl, rfl⟩

/-- Settles O41: the sentinel is one of the two ways in which FDEC accepts a frame. -/
theorem sentinelBypassesTheCheck : Obligations.SentinelBypassesTheCheck := by
  intro s b0 b1 b2 pl hs hf hd hn ho hl hb
  obtain ⟨t, ht, hdel⟩ := fdec_delivers hs hf (by omega) (by omega) hb (by omega) (.inl rfl)
  obtain ⟨hst, hdh, -, hout⟩ := registers_of_delivered hdel
  exact ⟨t, _, ht, hst, hdh, decHdrSkipped_decHdrWord .., hout⟩

/-- Settles O42: the changed byte leaves the length field, so FDEC compares the two checksums. -/
theorem corruptionIsDetected : Obligations.CorruptionIsDetected := by
  intro cat cmd pl s k x hs hl hn hf h88 hk hx hb
  obtain ⟨b1, b2, hd, hcov⟩ := covered_eq_bytes cat cmd hl
  have hklt : k < (covered cat cmd pl).length := by
    rw [hcov]; simp only [List.length_append, List.length_cons, List.length_nil]; omega
  rw [encodeFrame_eq_frame, frame_eq_covered_append] at hx hb
  rw [List.getElem?_append_left hklt] at hx
  have hne := checksum_set_ne hklt hx
  obtain ⟨b0', pl', hl', hset⟩ := set_header_append (hk.imp_right And.left) (cmdByte cat cmd) b1 b2 x pl
  rw [← hcov] at hset
  rw [List.set_append_left _ _ hklt, hset] at hb
  refine ⟨_, _, fdec_mismatch hs hf (by omega) (by omega) hb h88 (by rwa [← hset]), rfl, rfl,
    errCsumReceived_errCsumWord .., ?_, ?_⟩
  · rw [errCsumExpected_errCsumWord, hset]
  · rw [errCsumExpected_errCsumWord, errCsumReceived_errCsumWord, ← hset]
    exact hne

/-- Settles O40: FENC's OUT, copied to IN, is a complete frame whose checksum byte FDEC accepts. -/
theorem frameRoundTrip : Obligations.FrameRoundTrip := by
  intro cat cmd calcBit pad s t u pl hs hb hl hc ho hT ht hu hlen hin hcopy
  have hge : 4 + pl.length ≤ encodedLength pl.length pad := frameTotal_ge _ _ _ blockSize_pos
  obtain ⟨b1, b2, hd, hcov⟩ := covered_eq_bytes cat cmd hl
  obtain ⟨t', ht', -, hTw, hout⟩ := fenc_encodes hs (by rwa [hb.1]) (by rwa [hb.1]) hb (by rwa [hb.1])
  obtain rfl : t = t' := Host.Outcome.next.inj (ht.symm.trans ht')
  rw [hb.1] at hTw
  have hTn : t.outLen.toNat = encodedLength pl.length pad := by
    rw [hTw hT, BitVec.toNat_ofNat, Nat.mod_eq_of_lt hT]
  have haccept := frameChecksum_accepted (covered cat cmd pl) calcBit
  have hsent := frameChecksum_eq_sentinel_iff (covered cat cmd pl) calcBit
  have hframe := holds_copy_of_outputIs hout fun a ha => hcopy a <| Nat.lt_of_lt_of_le ha (by
    rw [frame_length]; omega)
  generalize frameChecksum (covered cat cmd pl) calcBit = c at haccept hsent hframe
  rw [frame_eq_covered_append, hcov] at hframe
  obtain ⟨v, hv, hdel⟩ := fdec_delivers hu (by rwa [inputLength, hlen]) hd
    (by rw [inputLength, hlen]; omega) hframe (by omega) (hcov ▸ haccept)
  obtain ⟨hst, hdh, hol, hvout⟩ := registers_of_delivered hdel
  refine ⟨v, _, hv, hst, hdh, ?_, ?_, ?_, ?_, ?_, ?_, hvout⟩
  · rw [decHdrCat_decHdrWord, cmdByteCategory_cmdByte]
  · rw [decHdrCmd_decHdrWord, cmdByteCommand_cmdByte]
  · rw [decHdrRsv0_decHdrWord, cmdByte_getLsbD_zero]
  · rw [decHdrDlen_decHdrWord, ← half_eq_toNat, hd]
  · rw [decHdrSkipped_decHdrWord, beq_iff_eq, hsent]
  · rw [hol, BitVec.toNat_ofNat, Nat.mod_eq_of_lt (by omega)]

end Sys2Proof.Machine

/-! PROOF. The statements about the OTP hash and OTPV (42_otp_hash.md): the hash as a fold over the
blob without byte 25, then what OTPV does on the input that its rule names, then the statements. -/

namespace Sys2Proof.Machine

open Spec

/-! ### The hash as a fold -/

/-- One round of the loop of R100: the new running state from the old one and a hashed byte. -/
def otpRound (T : Byte → Byte) (st b : Byte) : Byte := T (st ^^^ b)

/-- Behind byte 25 every byte is hashed. -/
theorem otpState_eq_foldl (T : Byte → Byte) {i : Nat} (hi : 25 < i) (st : Byte) (o : List Byte) :
    otpState T i st o = o.foldl (otpRound T) st := by
  induction o generalizing i st with
  | nil => rfl
  | cons b o ih =>
    rw [otpState, otpHashOffset_eq, if_neg (by omega), ih (by omega)]
    rfl

/-- `k` places before byte 25 the loop hashes what is left of the blob without its byte `k`. -/
theorem otpState_eq_foldl_eraseIdx (T : Byte → Byte) {i k : Nat} (hk : i + k = 25) (st : Byte)
    (o : List Byte) : otpState T i st o = (o.eraseIdx k).foldl (otpRound T) st := by
  induction o generalizing i k st with
  | nil => rfl
  | cons b o ih =>
    cases k with
    | zero => rw [otpState, otpHashOffset_eq, if_pos (by omega), otpState_eq_foldl T (by omega)]; rfl
    | succ k => rw [otpState, otpHashOffset_eq, if_neg (by omega), ih (k := k) (by omega)]; rfl

theorem otpHash_eq_foldl (T : Byte → Byte) (o : List Byte) :
    otpHash o T = ~~~ (o.eraseIdx 25).foldl (otpRound T) 0 := by
  rw [otpHash, otpState_eq_foldl_eraseIdx T (Nat.zero_add 25)]

theorem otpHash_toNat (T : Byte → Byte) (o : List Byte) :
    (otpHash o T).toNat = 255 - ((o.eraseIdx 25).foldl (otpRound T) 0).toNat := by
  rw [otpHash_eq_foldl, BitVec.toNat_not]

/-- Under T[x] = x + 1 the rounds over zero bytes count them (R102). -/
theorem foldl_otpRound_replicate_zero (k : Nat) (st : Byte) :
    (List.replicate k 0x00).foldl (otpRound (· + 1)) st = st + BitVec.ofNat 8 k := by
  induction k generalizing st with
  | zero => exact (BitVec.add_zero st).symm
  | succ k ih =>
    have hround : otpRound (· + 1) st 0x00 = st + 1 := congrArg (· + 1) BitVec.xor_zero
    rw [List.replicate_succ, List.foldl_cons, ih, hround, Nat.add_comm k, BitVec.ofNat_add,
      BitVec.add_assoc]
    rfl

/-! ### OTPV -/

/-- OTP_RES as R101 writes it. -/
theorem otpResWord_eq_ofNat (expected computed : Byte) :
    otpResWord expected computed = BitVec.ofNat 32 ((if expected = computed then 1 else 0)
      ||| (expected.toNat <<< 8) ||| (computed.toNat <<< 16)) := by
  have hmatch : (if expected = computed then 1 else 0) = (expected == computed).toNat := by
    by_cases h : expected = computed
    · simp [h]
    · simp [h, beq_false_of_ne h]
  have hm := toNat_bool_lt (expected == computed)
  have he := expected.isLt
  have hc := computed.isLt
  apply BitVec.eq_of_toNat_eq
  rw [otpResWord_toNat, hmatch, or_shiftLeft_eq_add _ _ 8 (by omega),
    or_shiftLeft_eq_add _ _ 16 (by omega), BitVec.toNat_ofNat]
  omega

section Otpv

variable {p : Params} {s : State} (hc : inputLength s ≤ p.inCap)
include hc

/-- OTPV on a blob without a byte 25 (R103). -/
theorem runOtpv_of_short (hn : inputLength s < 26) : runOtpv p s = raise .otpTooShort s := by
  rw [runOtpv, checkInput_of_le _ _ _ hc, if_pos hn]

variable (hn : 26 ≤ inputLength s)
include hn

/-- OTPV on a blob with a byte never written (R36). -/
theorem runOtpv_fault_of_none {a : Nat} (ha : a < inputLength s) (h : s.inMem.read? a = none) :
    ∃ f, runOtpv p s = .fault f := by
  obtain ⟨f, hf⟩ := readInBytes_error_of_none (a := 0) ha (by rwa [Nat.zero_add])
  exact ⟨f, by rw [runOtpv, checkInput_of_le _ _ _ hc, if_neg (Nat.not_lt.2 hn), hf, withRead_error]⟩

variable {o : List Byte} {T : Byte → Byte} (hb : InputIs s o)
  (hT : ∀ x b, s.table.read? x.toNat = some b → T x = b)
include hb

/-- OTPV on a blob that IN holds: the walk, and the two hashes (R101). -/
theorem runOtpv_of_inputIs :
    runOtpv p s = withRead (otpWalk (readTable s) 0 0 o) fun st =>
      finishOk ((s.setOtpRes (otpResWord (o.getD 25 0) (~~~ st))).setOutLen 0) := by
  rw [runOtpv, checkInput_of_le _ _ _ hc, if_neg (Nat.not_lt.2 hn), readInput_of_inputIs hb, withRead_ok,
    otpHashOffset_eq]

include hT

/-- OTPV completes when TABLE holds the entries that the walk indexes (R101). -/
theorem runOtpv_of_tableHolds
    (hw : ∀ i, i < o.length → i ≠ 25 → (s.table.read? (walkIndex T o i)).isSome) :
    runOtpv p s = finishOk ((s.setOtpRes (otpResWord (o.getD 25 0) (otpHash o T))).setOutLen 0) := by
  have hwalk : otpWalk (readTable s) 0 0 o = .ok (otpState T 0 0 o) := by
    refine otpWalk_eq_ok _ T 0 0 o fun i hi hne => ?_
    rw [Nat.zero_add] at hne
    obtain ⟨b, hr⟩ := Option.isSome_iff_exists.1 (hw i hi hne)
    rw [hT _ b hr]
    exact (readTable_eq_ok_iff ..).2 hr
  rw [runOtpv_of_inputIs hc hn hb, hwalk, withRead_ok, otpHash]

/-- OTPV faults on an entry that the walk indexes and that was never written (R36, R101). -/
theorem runOtpv_fault_of_entry_none {i : Nat} (hi : i < o.length) (hne : i ≠ 25)
    (h : s.table.read? (walkIndex T o i) = none) : ∃ f, runOtpv p s = .fault f := by
  obtain ⟨f, hf⟩ := otpWalk_eq_error (readTable s) T
    (fun x b hx => hT x b ((readTable_eq_ok_iff ..).1 hx)) 0 0 o i hi (by rwa [Nat.zero_add])
    ⟨_, readTable_eq_error s _ h⟩
  exact ⟨f, by rw [runOtpv_of_inputIs hc hn hb, hf, withRead_error]⟩

end Otpv

/-! ### The statements -/

/-- Settles O24: byte 25 is erased before the fold; the last property by swapping the bytes 1 and 0
under T[x] = x + 1. -/
theorem otpHashHasTheListedProperties : Obligations.OtpHashHasTheListedProperties := by
  have hcount : ∀ n, 26 ≤ n →
      (otpHash (List.replicate n 0x00) (· + 1)).toNat = 255 - (n - 1) % 256 := fun n hn => by
    rw [otpHash_toNat, List.eraseIdx_replicate, if_pos (by omega), foldl_otpRound_replicate_zero, zero_add,
      BitVec.toNat_ofNat]
  refine ⟨fun T o b => ?_, fun o _ => ?_, hcount, BitVec.eq_of_toNat_eq (hcount 26 le_rfl),
    (· + 1), 1 :: 0 :: List.replicate 24 0, 0 :: 1 :: List.replicate 24 0, by decide,
    .swap .., rfl, by decide⟩
  · rw [otpHash_eq_foldl, otpHash_eq_foldl, List.eraseIdx_set_eq]
  · rw [otpHash_toNat, List.eraseIdx_eq_take_drop_succ]
    rfl

/-- Settles O31: the endings of OTPV, with its operation code in STATUS. -/
theorem otpvFollowsItsRule : Obligations.OtpvFollowsItsRule := by
  refine ⟨rfl, fun s hs => ?_⟩
  rw [exec_otpv]
  refine ⟨fun hc => ?_, fun hc hn => ?_, fun a hc hn ha h => runOtpv_fault_of_none hc hn ha h,
    fun o T hc hn hb hT => ⟨fun hw => ?_,
      fun i hi hne h => runOtpv_fault_of_entry_none hc hn hb hT hi hne h⟩⟩
  · rw [runOtpv, checkInput_of_lt _ _ _ hc]
    exact hs.raise_eq .capacity
  · rw [runOtpv_of_short hc hn]
    exact hs.raise_eq .otpTooShort
  · rw [runOtpv_of_tableHolds hc hn hb hT hw, ← otpResWord_eq_ofNat]
    exact finishOk_of_op_eq hs.op_eq rfl

end Sys2Proof.Machine

/-! PROOF. The statements about the packed-pixel unpacker (43_image_unpack.md): a sample as two parts side
by side, its stored bytes, the byte of IMGU's output at each index, then what IMGU does on the input that
its rule names, then the statements. -/

namespace Sys2Proof.Machine

open Spec

/-! ### The samples of a chunk -/

/-- Two parts side by side are the upper one shifted and ORed with the lower one. -/
theorem append_eq_or {v w : Nat} (x : BitVec v) (y : BitVec w) :
    x ++ y = (x.setWidth (v + w) <<< w) ||| y.setWidth (v + w) := by
  rw [BitVec.append_def, BitVec.shiftLeftZeroExtend_eq, BitVec.setWidth'_eq]

theorem and_lowNibble_eq_setWidth (x : Byte) : x &&& 0x0F = (x.extractLsb' 0 4).setWidth 8 := by
  apply BitVec.eq_of_toNat_eq
  rw [BitVec.toNat_and, BitVec.toNat_setWidth_of_le (by decide), BitVec.extractLsb'_toNat,
    Nat.shiftRight_zero]
  exact Nat.and_two_pow_sub_one_eq_mod x.toNat 4

theorem shiftRight_eq_setWidth_highNibble (x : Byte) : x >>> 4 = (x.extractLsb' 4 4).setWidth 8 := by
  rw [BitVec.ushiftRight_eq_extractLsb'_of_lt (by decide)]
  exact (BitVec.setWidth_eq_append (by decide)).symm

/-- Samples s0 and s2: the low nibble of one byte above another byte (R69). -/
theorem sampleLowNibble_eq_append (x y : Byte) : sampleLowNibble x y = x.extractLsb' 0 4 ++ y := by
  rw [append_eq_or, sampleLowNibble, and_lowNibble_eq_setWidth, BitVec.setWidth_setWidth (by decide)]

/-- Samples s1 and s3: a byte above the high nibble of another byte (R69). -/
theorem sampleHighNibble_eq_append (x y : Byte) : sampleHighNibble x y = x ++ y.extractLsb' 4 4 := by
  rw [append_eq_or, sampleHighNibble, shiftRight_eq_setWidth_highNibble,
    BitVec.setWidth_setWidth (by decide)]

theorem sampleLowNibble_toNat (x y : Byte) :
    (sampleLowNibble x y).toNat = ((x.toNat &&& 0x0F) <<< 8) ||| y.toNat := by
  rw [sampleLowNibble_eq_append, BitVec.toNat_append, BitVec.extractLsb'_toNat, Nat.shiftRight_zero,
    Nat.and_two_pow_sub_one_eq_mod x.toNat 4]

theorem sampleHighNibble_toNat (x y : Byte) :
    (sampleHighNibble x y).toNat = (x.toNat <<< 4) ||| (y.toNat >>> 4) := by
  rw [sampleHighNibble_eq_append, BitVec.toNat_append, ← BitVec.toNat_ushiftRight,
    shiftRight_eq_setWidth_highNibble, BitVec.toNat_setWidth_of_le (by decide)]

/-- The samples of a chunk on natural numbers (R105). -/
theorem unpackChunk_toNat (c0 c1 c2 c3 c4 c5 : Byte) :
    (unpackChunk c0 c1 c2 c3 c4 c5).map BitVec.toNat =
      (List.range 4).map (sample fun i => ([c0, c1, c2, c3, c4, c5].getD i 0).toNat) := by
  simp only [unpackChunk, List.map_cons, List.map_nil, sampleLowNibble_toNat, sampleHighNibble_toNat]
  rfl

theorem nibbles_sampleLowNibble (x y : Byte) :
    ((sampleLowNibble x y).extractLsb' 8 4, (sampleLowNibble x y).extractLsb' 4 4,
        (sampleLowNibble x y).extractLsb' 0 4) =
      (x.extractLsb' 0 4, y.extractLsb' 4 4, y.extractLsb' 0 4) := by
  rw [sampleLowNibble_eq_append, BitVec.extractLsb'_append_eq_of_le (by decide),
    BitVec.extractLsb'_append_eq_of_add_le (by decide), BitVec.extractLsb'_append_eq_of_add_le (by decide),
    BitVec.extractLsb'_eq_self]

theorem nibbles_sampleHighNibble (x y : Byte) :
    ((sampleHighNibble x y).extractLsb' 8 4, (sampleHighNibble x y).extractLsb' 4 4,
        (sampleHighNibble x y).extractLsb' 0 4) =
      (x.extractLsb' 4 4, x.extractLsb' 0 4, y.extractLsb' 4 4) := by
  rw [sampleHighNibble_eq_append, BitVec.extractLsb'_append_eq_of_le (by decide),
    BitVec.extractLsb'_append_eq_of_le (by decide), BitVec.extractLsb'_append_eq_right]

/-! ### The stored bytes of a sample -/

theorem setWidth_sampleLowNibble (x y : Byte) : (sampleLowNibble x y).setWidth 8 = y := by
  rw [sampleLowNibble_eq_append, BitVec.setWidth_append_eq_right]

theorem setWidth_sampleHighNibble (x y : Byte) :
    (sampleHighNibble x y).setWidth 8 = ((x &&& 0x0F) <<< 4) ||| (y >>> 4) := by
  rw [sampleHighNibble_eq_append, and_lowNibble_eq_setWidth, shiftRight_eq_setWidth_highNibble,
    BitVec.setWidth_append, dif_neg (by decide), BitVec.setWidth_eq_extractLsb' (by decide)]
  exact append_eq_or (x.extractLsb' 0 4) (y.extractLsb' 4 4)

/-- The stored bytes on natural numbers (R106). -/
theorem storeSample_eq_ofNat (wide : Bool) (s : Sample) : storeSample wide s =
    BitVec.ofNat 8 (s.toNat &&& 0xFF) :: if wide then [BitVec.ofNat 8 (s.toNat >>> 8)] else [] := by
  have hlow : s.setWidth 8 = BitVec.ofNat 8 (s.toNat &&& 0xFF) := by
    rw [BitVec.ofNat_and, BitVec.ofNat_toNat]
    exact BitVec.and_allOnes.symm
  have hlow16 : lowByte (s.setWidth 16) = s.setWidth 8 := by
    rw [lowByte, ← BitVec.setWidth_eq_extractLsb' (by decide), BitVec.setWidth_setWidth (by decide)]
  have hhigh16 : highByte (s.setWidth 16) = BitVec.ofNat 8 (s.toNat >>> 8) := by
    apply BitVec.eq_of_toNat_eq
    rw [highByte, BitVec.extractLsb'_toNat, BitVec.toNat_setWidth_of_le (by decide), BitVec.toNat_ofNat]
  cases wide with
  | false => rw [← hlow]; rfl
  | true => rw [storeSample, halfBytes, hlow16, hlow, hhigh16]; rfl

theorem storeSample_length (wide : Bool) (s : Sample) :
    (storeSample wide s).length = if wide then 2 else 1 := by
  cases wide <;> rfl

/-! ### The output of IMGU -/

/-- Sample `j` of chunk `k` of a stream, as R105 writes it. -/
def chunkSample (bs : List Byte) (k j : Nat) : Nat := sample (fun i => (bs.getD (6 * k + i) 0).toNat) j

theorem chunkSample_succ (c0 c1 c2 c3 c4 c5 : Byte) (cs : List Byte) (k j : Nat) :
    chunkSample (c0 :: c1 :: c2 :: c3 :: c4 :: c5 :: cs) (k + 1) j = chunkSample cs k j := by
  simp only [chunkSample, Nat.mul_succ, Nat.add_right_comm (6 * k) 6]
  rfl

/-- Sample `j` of chunk `k` is at place 4k + j of the samples of a stream (R107). -/
theorem unpackStream_getElem? {bs : List Byte} {k j : Nat} (hk : k < bs.length / 6) (hj : j < 4) :
    ((unpackStream bs)[4 * k + j]?).map BitVec.toNat = some (chunkSample bs k j) := by
  induction bs using unpackStream.induct generalizing k with
  | case1 c0 c1 c2 c3 c4 c5 cs ih =>
    rw [unpackStream]
    cases k with
    | zero =>
      rw [← List.getElem?_map, List.map_append, unpackChunk_toNat]
      match j, hj with
      | 0, _ | 1, _ | 2, _ | 3, _ => rfl
    | succ k =>
      have hk' : k < cs.length / 6 := by simp only [List.length_cons] at hk; omega
      rw [chunkSample_succ, Nat.mul_succ, Nat.add_right_comm (4 * k)]
      exact ih hk'
  | case2 t h =>
    have hnil : unpackStream t = [] := by rw [unpackStream]; exact h
    have hlen := unpackStream_length t
    rw [hnil, List.length_nil] at hlen
    omega

/-- Lists of one length `w` laid end to end: place `r` of list `i`. -/
theorem flatMap_getElem? {α β : Type} {f : α → List β} {w : Nat} (hf : ∀ x, (f x).length = w)
    (l : List α) (i : Nat) {r : Nat} (hr : r < w) :
    (l.flatMap f)[i * w + r]? = l[i]?.bind fun x => (f x)[r]? := by
  induction l generalizing i with
  | nil => rfl
  | cons x xs ih =>
    rw [List.flatMap_cons]
    cases i with
    | zero =>
      rw [Nat.zero_mul, Nat.zero_add, List.getElem?_append_left (by rwa [hf])]
      rfl
    | succ i =>
      rw [Nat.succ_mul, Nat.add_right_comm, List.getElem?_append_right (by rw [hf]; omega), hf,
        Nat.add_sub_cancel, ih]
      rfl

/-- Byte `r` of sample `j` of chunk `k` in the output (R107): the low byte, and with WIDE = 1 the high
byte behind it. -/
theorem imageBytes_getElem? (wide : Bool) {bs : List Byte} {k j : Nat} (hk : k < bs.length / 6)
    (hj : j < 4) {r : Nat} (hr : r < if wide then 2 else 1) :
    (imageBytes wide bs)[(4 * k + j) * (if wide then 2 else 1) + r]? =
      some (BitVec.ofNat 8
        (if r = 0 then chunkSample bs k j &&& 0xFF else chunkSample bs k j >>> 8)) := by
  obtain ⟨x, hx, hn⟩ := Option.map_eq_some_iff.1 (unpackStream_getElem? hk hj)
  rw [imageBytes, flatMap_getElem? (storeSample_length wide) _ _ hr, hx, Option.bind_some,
    storeSample_eq_ofNat, ← hn]
  match wide, r, hr with
  | false, 0, _ | true, 0, _ | true, 1, _ => rfl

/-- A byte of the output is what OUT holds at its index (R34). -/
theorem read?_eq_some_of_outputIs {s t : State} {bs : List Byte} {a : Nat} {b : Byte}
    (h : OutputIs s t bs) (hb : bs[a]? = some b) : t.outMem.read? a = some b := by
  rw [h a, if_pos (List.getElem?_eq_some_iff.1 hb).1, hb]

/-! ### IMGU -/

section Imgu

variable {p : Params} {wide : Bool} {s : State}

theorem StartedBy.op_imgu (hs : StartedBy (.imgu wide) s) : s.desc.extractLsb' 0 8 = 0x06 := hs.op_eq

theorem StartedBy.raise_imgu (hs : StartedBy (.imgu wide) s) (c : StatusCode) :
    raise c s = .next (errorState s (statusWord 0x06 c)) := hs.raise_eq c

variable (hc : inputLength s ≤ p.inCap)

include hc

/-- IMGU on a stream with a partial chunk (R108). -/
theorem runImgu_of_partial (hn : inputLength s % 6 ≠ 0) : runImgu p wide s = raise .badImageLength s := by
  rw [runImgu, checkInput_of_le _ _ _ hc, if_pos hn]

variable (hn : inputLength s % 6 = 0)

include hn

/-- IMGU on whole chunks whose samples do not fit OUT (R107). -/
theorem runImgu_of_lt (ho : p.outCap < imageTotal (inputLength s) wide) :
    runImgu p wide s = raise .capacity s := by
  rw [runImgu, checkInput_of_le _ _ _ hc, if_neg (not_not.2 hn), if_pos ho]

variable (ho : imageTotal (inputLength s) wide ≤ p.outCap)

include ho

/-- IMGU on whole chunks whose samples fit OUT reads the stream (R107). -/
theorem runImgu_of_le : runImgu p wide s = withRead (readInBytes s 0 (inputLength s)) fun stream =>
    finishOk ((s.putOut (imageBytes wide stream)).setOutLen (imageTotal (inputLength s) wide)) := by
  rw [runImgu, checkInput_of_le _ _ _ hc, if_neg (not_not.2 hn), if_neg (Nat.not_lt.2 ho)]

/-- IMGU on a stream with a byte never written (R36). -/
theorem runImgu_fault_of_none {a : Nat} (ha : a < inputLength s) (h : s.inMem.read? a = none) :
    ∃ f, runImgu p wide s = .fault f := by
  obtain ⟨f, hf⟩ := readInBytes_error_of_none (a := 0) ha (by rwa [Nat.zero_add])
  exact ⟨f, by rw [runImgu_of_le hc hn ho, hf, withRead_error]⟩

/-- IMGU on whole chunks that IN holds and whose samples fit OUT: the samples in OUT, their number of
bytes, OK (R107). -/
theorem imgu_unpacks {bs : List Byte} (hs : StartedBy (.imgu wide) s) (hb : InputIs s bs) :
    ∃ t, runImgu p wide s = .next t ∧
      t = { s with
        outMem := t.outMem, outLen := outLenWord s.desc s.inLen (imageTotal (inputLength s) wide),
        status := 0x00000601 } ∧
      OutputIs s t (imageBytes wide bs) := by
  rw [runImgu_of_le hc hn ho, readInput_of_inputIs hb, withRead_ok]
  exact ⟨_, finishOk_of_op_eq hs.op_imgu rfl, rfl, outputIs_of_outMem rfl⟩

end Imgu

/-! ### The statements -/

/-- Settles O22: each sample is two parts side by side, read as a number and nibble by nibble. -/
theorem chunkUnpacksToFourSamples : Obligations.ChunkUnpacksToFourSamples := by
  refine fun c0 c1 c2 c3 c4 c5 => ⟨unpackChunk_toNat c0 c1 c2 c3 c4 c5, ?_⟩
  simp only [unpackChunk, List.map_cons, List.map_nil, nibbles_sampleLowNibble, nibbles_sampleHighNibble]

/-- Settles O23: the stored bytes as numbers, and the low byte of each sample of a chunk. -/
theorem samplesAreStoredByWidth : Obligations.SamplesAreStoredByWidth := by
  refine ⟨fun s => ⟨storeSample_eq_ofNat false s, storeSample_eq_ofNat true s, ?_⟩,
    fun c0 c1 c2 c3 c4 c5 => ?_⟩
  · have := s.isLt
    rw [Nat.shiftRight_eq_div_pow]
    omega
  · calc imageBytes false [c0, c1, c2, c3, c4, c5]
        = (unpackChunk c0 c1 c2 c3 c4 c5).map (BitVec.setWidth 8) := rfl
      _ = _ := by
        simp only [unpackChunk, List.map_cons, List.map_nil, setWidth_sampleLowNibble,
          setWidth_sampleHighNibble]

/-- Settles O32: the endings of IMGU, with its operation code in STATUS. -/
theorem imguFollowsItsRule : Obligations.ImguFollowsItsRule := by
  refine ⟨rfl, rfl, fun wide s hs => ?_⟩
  rw [exec_imgu]
  refine ⟨fun hc => ?_, fun hc hn => ?_, fun hc hn ho => ?_, fun bs hc hn ho hb => ?_,
    fun a hc hn ho ha h => runImgu_fault_of_none hc hn ho ha h⟩
  · rw [runImgu, checkInput_of_lt _ _ _ hc]
    exact hs.raise_imgu .capacity
  · rw [runImgu_of_partial hc hn]
    exact hs.raise_imgu .badImageLength
  · rw [runImgu_of_lt hc hn ho]
    exact hs.raise_imgu .capacity
  · obtain ⟨t, hrun, ht, hout⟩ := imgu_unpacks hc hn ho hs hb
    have hlen : (imageBytes wide bs).length = inputLength s / 6 * 4 * (if wide then 2 else 1) := by
      rw [imageBytes_length, hb.1]; rfl
    have hol : t.outLen = outLenWord s.desc s.inLen _ := congrArg State.outLen ht
    refine ⟨t, hrun, hol ▸ ht, fun h => hol.trans (outLenWord_of_lt _ _ h),
      fun k j hk hj => ⟨?_, fun hw => ?_⟩, fun a ha => ?_⟩
    · rw [hb.1] at hk
      exact read?_eq_some_of_outputIs hout
        (imageBytes_getElem? wide hk hj (r := 0) (by cases wide <;> decide))
    · subst hw
      rw [hb.1] at hk
      exact read?_eq_some_of_outputIs hout (imageBytes_getElem? true hk hj (r := 1) (by decide))
    · rw [hout a, hlen, if_neg (Nat.not_lt.2 ha)]

end Sys2Proof.Machine

/-! PROOF. The statements about the FDT base transform (44_fdt_base.md): the base of a word as a number
and as two bytes, the byte of FDTB's output at each index, then what FDTB does on the words that its rule
names, then the statements. -/

namespace Sys2Proof.Machine

open Spec

/-! ### The base of a word -/

/-- The formula of R111 on natural numbers. -/
theorem fdtBase_toNat (v : Half) : (Machine.fdtBase v).toNat = Spec.fdtBase v.toNat :=
  BitVec.toNat_ofNat ..

/-- The formula of R111 from `v >> 1` alone: the mask clears the one bit that the shift drops, so the
reduced product is `v >> 1` eight places up. -/
theorem fdtBase_eq_or (v : Half) : Machine.fdtBase v = ((v >>> 1) <<< 8) ||| (v >>> 1) := by
  have hmul : (v.toNat &&& fdtMask) * fdtMul = (v.toNat &&& fdtMask) <<< 7 := (Nat.shiftLeft_eq _ 7).symm
  have hmask : v &&& BitVec.ofNat 16 fdtMask = v >>> 1 <<< 1 :=
    (BitVec.shiftLeft_ushiftRight (x := v) (n := 1)).symm
  have hv (x : Half) : BitVec.ofNat 16 x.toNat = x := by rw [BitVec.ofNat_toNat, BitVec.setWidth_eq]
  rw [Machine.fdtBase, hmul, BitVec.ofNat_or, ofNat_shiftLeft, BitVec.ofNat_and, hv, hmask,
    ← BitVec.toNat_ushiftRight, hv, ← BitVec.shiftLeft_add]

theorem shiftRight_one_eq_append (v : Half) :
    v >>> 1 = (v.extractLsb' 9 7).setWidth 8 ++ v.extractLsb' 1 8 := by
  have hfields : v.extractLsb' 1 15 = v.extractLsb' 9 7 ++ v.extractLsb' 1 8 :=
    (BitVec.extractLsb'_append_extractLsb'_eq_extractLsb' (start₁ := 1) (len₁ := 8) rfl).symm
  rw [BitVec.ushiftRight_eq_extractLsb'_of_lt (by decide), BitVec.setWidth_eq_append (by decide)]
  calc 0#1 ++ v.extractLsb' 1 15
      = 0#1 ++ (v.extractLsb' 9 7 ++ v.extractLsb' 1 8) := congrArg (0#1 ++ ·) hfields
    _ = 0#1 ++ v.extractLsb' 9 7 ++ v.extractLsb' 1 8 := BitVec.append_assoc.symm

/-- The base as two bytes (R114). -/
theorem fdtBase_eq_append (v : Half) : Machine.fdtBase v =
    (v.extractLsb' 1 8 ||| (v.extractLsb' 9 7).setWidth 8) ++ v.extractLsb' 1 8 := by
  have hshift : (v >>> 1) <<< 8 = v.extractLsb' 1 8 ++ 0#8 := by
    rw [BitVec.shiftLeft_eq_concat_of_lt (by decide), shiftRight_one_eq_append]
    exact congrArg (· ++ 0#8) BitVec.extractLsb'_append_eq_right
  rw [fdtBase_eq_or, hshift, shiftRight_one_eq_append, BitVec.or_append, BitVec.zero_or]

/-- The two bytes of a word on natural numbers. -/
theorem halfBytes_eq_ofNat (v : Half) :
    halfBytes v = [BitVec.ofNat 8 (v.toNat &&& 0xFF), BitVec.ofNat 8 (v.toNat >>> 8)] := by
  have hlow : lowByte v = BitVec.ofNat 8 (v.toNat &&& 0xFF) := by
    apply BitVec.eq_of_toNat_eq
    rw [lowByte, BitVec.extractLsb'_toNat, BitVec.toNat_ofNat, Nat.shiftRight_zero,
      Nat.and_two_pow_sub_one_eq_mod v.toNat 8, Nat.mod_mod]
  have hhigh : highByte v = BitVec.ofNat 8 (v.toNat >>> 8) := by
    apply BitVec.eq_of_toNat_eq
    rw [highByte, BitVec.extractLsb'_toNat, BitVec.toNat_ofNat]
  rw [halfBytes, hlow, hhigh]

/-! ### The output of FDTB -/

/-- Byte `r` of word `j` in the output: the low byte of the word's base, and the high one behind it
(R112). -/
theorem fdtBytes_getElem? {bs : List Byte} {j : Nat} (hj : j < bs.length / 2) {r : Nat} (hr : r < 2) :
    (fdtBytes bs)[2 * j + r]? =
      (halfBytes (Machine.fdtBase (halfOfBytes (bs.getD (2 * j) 0) (bs.getD (2 * j + 1) 0))))[r]? := by
  induction bs using fdtBytes.induct generalizing j with
  | case1 lo hi rest ih =>
    rw [fdtBytes]
    cases j with
    | zero =>
      rw [List.getElem?_append_left (by simpa [halfBytes] using hr), Nat.mul_zero, Nat.zero_add]
      rfl
    | succ j =>
      have hj' : j < rest.length / 2 := by simp only [List.length_cons] at hj; omega
      rw [Nat.mul_succ, Nat.add_right_comm]
      exact ih hj'
  | case2 t h =>
    have hnil : fdtBytes t = [] := by rw [fdtBytes]; exact h
    have hlen := fdtBytes_length t
    rw [hnil, List.length_nil, fdtTotal] at hlen
    omega

/-- The two bytes of word `j` of the output on natural numbers (R112). -/
theorem fdtBytes_word_eq_ofNat {bs : List Byte} {j : Nat} (hj : j < bs.length / 2) :
    (fdtBytes bs)[2 * j]? = some (BitVec.ofNat 8
      (Spec.fdtBase (half (bs.getD (2 * j) 0) (bs.getD (2 * j + 1) 0)) &&& 0xFF)) ∧
    (fdtBytes bs)[2 * j + 1]? = some (BitVec.ofNat 8
      (Spec.fdtBase (half (bs.getD (2 * j) 0) (bs.getD (2 * j + 1) 0)) >>> 8)) := by
  rw [half_eq_toNat, ← fdtBase_toNat]
  constructor
  · exact (fdtBytes_getElem? hj (r := 0) (by decide)).trans (by rw [halfBytes_eq_ofNat]; rfl)
  · exact (fdtBytes_getElem? hj (r := 1) (by decide)).trans (by rw [halfBytes_eq_ofNat]; rfl)

/-! ### FDTB -/

section Fdtb

variable {p : Params} {s : State} (hc : inputLength s ≤ p.inCap)

include hc

/-- FDTB on a table whose words do not fit OUT (R112). -/
theorem runFdtb_of_lt (ho : p.outCap < fdtTotal (inputLength s)) : runFdtb p s = raise .capacity s := by
  rw [runFdtb, checkInput_of_le _ _ _ hc, if_pos ho]

variable (ho : fdtTotal (inputLength s) ≤ p.outCap)

include ho

/-- FDTB on a table whose words fit OUT reads the whole words (R112, R113). -/
theorem runFdtb_of_le : runFdtb p s = withRead (readInBytes s 0 (fdtTotal (inputLength s))) fun raw =>
    finishOk ((s.putOut (fdtBytes raw)).setOutLen (fdtTotal (inputLength s))) := by
  rw [runFdtb, checkInput_of_le _ _ _ hc, if_neg (Nat.not_lt.2 ho)]

/-- FDTB on a table with a byte of a whole word never written (R36). -/
theorem runFdtb_fault_of_none {a : Nat} (ha : a < fdtTotal (inputLength s))
    (h : s.inMem.read? a = none) : ∃ f, runFdtb p s = .fault f := by
  obtain ⟨f, hf⟩ := readInBytes_error_of_none (a := 0) ha (by rwa [Nat.zero_add])
  exact ⟨f, by rw [runFdtb_of_le hc ho, hf, withRead_error]⟩

/-- FDTB on whole words that IN holds and that fit OUT: their bases in OUT, their number of bytes, OK
(R112). -/
theorem fdtb_transforms {bs : List Byte} (hs : StartedBy .fdtb s)
    (hl : bs.length = fdtTotal (inputLength s)) (hb : s.inMem.Holds 0 bs) :
    ∃ t, runFdtb p s = .next t ∧
      t = { s with
        outMem := t.outMem, outLen := BitVec.ofNat 32 (fdtTotal (inputLength s)),
        status := 0x00000701 } ∧
      OutputIs s t (fdtBytes bs) := by
  have hlt : fdtTotal (inputLength s) < 4294967296 := by
    have := s.inLen.isLt
    simp only [fdtTotal, inputLength]; omega
  rw [runFdtb_of_le hc ho, (readInBytes_eq_ok_iff ..).2 ⟨hl, hb⟩, withRead_ok,
    ← outLenWord_of_lt s.desc s.inLen hlt]
  exact ⟨_, finishOk_of_op_eq hs.op_eq rfl, rfl, outputIs_of_outMem rfl⟩

end Fdtb

/-! ### The statements -/

/-- Settles O25: the word is the formula, and the residue of an OR is the OR of the residues. -/
theorem fdtBaseFollowsTheFormula : Obligations.FdtBaseFollowsTheFormula := by
  refine fun v => ⟨fdtBase_toNat v, ?_⟩
  have hshift : v.toNat >>> 1 % 2 ^ 16 = v.toNat >>> 1 := by
    rw [← BitVec.toNat_ushiftRight]; exact Nat.mod_eq_of_lt (v >>> 1).isLt
  exact (Nat.or_mod_two_pow (n := 16)).trans (by rw [hshift])

/-- Settles O26: the base is two bytes side by side, and all of it comes from `v >> 1`. -/
theorem fdtBaseBitByBit : Obligations.FdtBaseBitByBit := by
  refine ⟨fun v => ?_, fun v => ?_, 1, by decide⟩
  · rw [fdtBase_eq_append]
    exact ⟨BitVec.extractLsb'_append_eq_right, BitVec.extractLsb'_append_eq_left⟩
  · have hbit : (v ^^^ 1) >>> 1 = v >>> 1 := by
      rw [BitVec.ushiftRight_xor_distrib]
      exact BitVec.xor_zero
    rw [fdtBase_eq_or, fdtBase_eq_or, hbit]

/-- Settles O33: the endings of FDTB, with its operation code in STATUS. -/
theorem fdtbFollowsItsRule : Obligations.FdtbFollowsItsRule := by
  refine ⟨rfl, fun s hs => ?_⟩
  rw [exec_fdtb]
  refine ⟨fun hc => ?_, fun hc ho => ?_, fun bs hc ho hl hb => ?_,
    fun a hc ho ha h => runFdtb_fault_of_none hc ho ha h⟩
  · rw [runFdtb, checkInput_of_lt _ _ _ hc]
    exact hs.raise_eq .capacity
  · rw [runFdtb_of_lt hc ho]
    exact hs.raise_eq .capacity
  · obtain ⟨t, hrun, ht, hout⟩ := fdtb_transforms hc ho hs hl hb
    have hlen : (fdtBytes bs).length = 2 * (inputLength s / 2) := by
      rw [fdtBytes_length, hl, fdtTotal]; omega
    refine ⟨t, hrun, ht, fun j hj => ?_, fun a ha => ?_⟩
    · obtain ⟨hlow, hhigh⟩ := fdtBytes_word_eq_ofNat (bs := bs) (j := j) (by omega)
      exact ⟨read?_eq_some_of_outputIs hout hlow, read?_eq_some_of_outputIs hout hhigh⟩
    · rw [hout a, hlen, if_neg (Nat.not_lt.2 ha)]

end Sys2Proof.Machine

/-! PROOF. The statements about the errors (60_exceptions.md): the common check and the error endings of
an operation, then the statements. -/

namespace Sys2Proof.Machine

open Spec

/-! ### The common check -/

/-- Every operation except ACKCHK makes the common check before its own rule (R117). -/
theorem exec_of_inCap_lt {i : Instr} {s : State} (hi : ∀ cat cmd, i ≠ .ackchk cat cmd)
    (hc : Config.params.inCap < inputLength s) : exec i s = raise .capacity s := by
  cases i with
  | ackchk cat cmd => exact absurd rfl (hi cat cmd)
  | csum | fenc | fdec | otpv | imgu | fdtb => exact checkInput_of_lt _ _ _ hc

/-- ACKCHK makes no capacity check: it ends OK or INVALID_ACK, whatever IN_LEN is (R93, R117). -/
theorem execAckchk_code_ne_capacity (cat : Category) (cmd : Command) (s : State) :
    ∃ t, execAckchk cat cmd s = .next t ∧ statusCodeField t.status ≠ 0x08 := by
  refine ⟨_, execAckchk_eq cat cmd s, ?_⟩
  rw [State.setStatus_status, statusCodeField_statusWord]
  split
  · decide
  · decide

/-! ### The state after an error -/

/-- An operation that does not end OK writes no more than STATUS, OUT_LEN and the two registers of error
details (R120). -/
theorem Ending.eq_errorState {s t : State} {i : Instr} (h : Ending s i t)
    (hne : statusCodeField t.status ≠ 0x01) :
    t = { errorState s t.status with errCsum := t.errCsum, ackRsn := t.ackRsn } := by
  cases h with
  | plain | mismatch | ack => rfl
  | csum | otp | decoded | output => exact absurd (statusCodeField_statusWord ..) hne

/-- STATUS put together from LAST_OP and the code that reads back from it (R24, R120). -/
theorem ofNat_lastOp_or_code {w : Word} {op : Byte} {c : StatusCode} (h : w = statusWord op c) :
    BitVec.ofNat 32 ((op.toNat <<< 8) ||| (statusCodeField w).toNat) = w := by
  rw [h, statusCodeField_statusWord, Nat.lor_comm, statusWord_eq_ofNat]

/-! ### The statements -/

/-- Settles O34: an illegal descriptor starts nothing, and the common check stands before each other
operation's own rule. -/
theorem commonChecksComeFirst : Obligations.CommonChecksComeFirst := by
  refine fun s d rest hp => ⟨fun e hd => ?_, fun i hd hi hc => ?_, fun cat cmd hd => ?_⟩
  · exact (step_descWrite_illegal hp hd).trans (raise_eq_errorState ..)
  · have hcap := exec_of_inCap_lt (s := (s.setPending rest).setDesc d) hi hc
    exact (step_descWrite_legal hp hd).trans (hcap.trans (raise_eq_errorState ..))
  · rw [step_descWrite_legal hp hd]
    exact execAckchk_code_ne_capacity ..

/-- Settles O36: over the endings that are no OK, and the illegal descriptor. -/
theorem errorsArePrecise : Obligations.ErrorsArePrecise := by
  intro s t d rest hp ht hne
  rcases step_descWrite_next hp ht with ⟨i, -, he⟩ | ⟨e, -, he⟩
  · obtain ⟨c, -, hst⟩ := he.status
    refine ⟨?_, fun h => (he.errCsum_eq_or.resolve_left h).2,
      fun h => (he.ackRsn_eq_or.resolve_left h).2.resolve_left hne⟩
    rw [ofNat_lastOp_or_code (op := d.extractLsb' 0 8) hst]
    exact he.eq_errorState hne
  · have hst : t.status = statusWord (d.extractLsb' 0 8) .illegalOperation := congrArg State.status he
    rw [ofNat_lastOp_or_code hst]
    subst he
    exact ⟨rfl, fun h => absurd rfl h, fun h => absurd rfl h⟩

/-- Settles O9. -/
theorem idleUnitHoldsItsState : Obligations.IdleUnitHoldsItsState := fun _ => step_of_pending_nil

end Sys2Proof.Machine

/-! PROOF. The statement about reset (70_reset_and_hazards.md R132): what a reset leaves of the unit and
of the host's side, then the statement. -/

namespace Sys2Proof.Machine

/-! ### Reset -/

@[simp] theorem unitOf_resetUnit (s : State) : unitOf (resetUnit s) = State.reset := rfl

@[simp] theorem resetUnit_pending (s : State) : (resetUnit s).pending = s.pending := rfl

/-- A reset step answers a next state whatever the unit holds (R132). -/
theorem step_reset {s : State} {rest : List HostStep} (hp : s.pending = .reset :: rest) :
    step s = .next (resetUnit (s.setPending rest)) :=
  step_of_pending_cons hp

/-! ### The statement -/

/-- Settles O2. -/
theorem resetStepRestoresTheUnit : Obligations.ResetStepRestoresTheUnit :=
  fun s rest hp => ⟨resetUnit (s.setPending rest), step_reset hp, unitOf_resetUnit _, resetUnit_pending _⟩

end Sys2Proof.Machine
